-- ==== Sys2Proof/Word.lean ====
section
/-! DEFINITION. The two widths of the core (R6): a byte is 8 bits, a word is 32 bits, both unsigned. -/

namespace Sys2Proof

/-- A word of `W`, `K`, `IV`, `H`, `a..h` (R5 `WORD_BITS`, R6). -/
abbrev Word := BitVec 32

/-- A byte of `MSG`, `PMEM`, `DIGEST`, `HEX` (R6). -/
abbrev Byte := BitVec 8

end Sys2Proof
end

