-- ==== Sys2Proof/Config.lean ====
section
/-! DEFINITION. What the spec leaves to a platform (R5) and the FREE VALUES: constants without a body, which stand
wherever the spec says "unspecified" (R25, R105, R106, R109, R110; log entries 2, 3, 4). Nothing can evaluate one, so a
statement about it holds for every value. Each is applied to the model's draw counter `State.draws`, which moves on at
every operation that draws. -/

namespace Sys2Proof

/-- The spec's default of the parameter `MAX_MSG_BYTES` (R5, D3): `none`, no bound. The machine takes the parameter from
`State.maxMsgBytes`; this is the value it has in `State.reset` (log entry 5). -/
def Config.maxMsgBytes : Option Nat := none

/-- What `RESET` leaves in `MSG` (R25). -/
opaque Config.freeMsg : Nat → List Byte
/-- What `RESET` leaves in `MSGLEN` (R25). -/
opaque Config.freeMsgLen : Nat → Nat
/-- What `RESET` leaves in `PMEM` (R25). -/
opaque Config.freePmem : Nat → List Byte
/-- What `RESET` leaves in `NBLK` (R25). -/
opaque Config.freeNblk : Nat → Nat
/-- What `RESET` leaves in `BLK` (R25). -/
opaque Config.freeBlk : Nat → Nat
/-- What `RESET` leaves in `T` (R25). -/
opaque Config.freeT : Nat → BitVec 7
/-- What `RESET` leaves in `W[0..63]` (R25). -/
opaque Config.freeW : Nat → Vector Word 64
/-- What `RESET` leaves in `a..h`, in that order (R25). -/
opaque Config.freeVars : Nat → Vector Word 8
/-- What `RESET` leaves in `H[0..7]` (R25). -/
opaque Config.freeH : Nat → Vector Word 8
/-- What `RESET` and an effective `START` leave in `DIGEST` (R25, R105). -/
opaque Config.freeDigest : Nat → Vector Byte 32
/-- What `RESET` and an effective `START` leave in `HEX` (R25, R105). -/
opaque Config.freeHex : Nat → Vector Byte 64
/-- What `RDDIGEST` returns while `PHASE` is not `DONE` (R109), a fresh draw per read. -/
opaque Config.freeDigestRead : Nat → Vector Byte 32
/-- What `RDHEX` returns while `PHASE` is not `DONE` (R110), a fresh draw per read. -/
opaque Config.freeHexRead : Nat → Vector Byte 64
/-- The byte `PAD` reads at an index of `MSG` that holds no value: no run from reset gets there (R28). -/
opaque Config.absentMsg : Nat → Nat → Byte
/-- The byte `LOAD` reads at an index of `PMEM` that holds no value: no run from reset gets there (R28). -/
opaque Config.absentPmem : Nat → Nat → Byte
/-- The word read at an index of `W` outside `[0,64)`, given as the draw counter, `T` and the tap's distance: no run from
reset gets there (R33). -/
opaque Config.absentW : Nat → Nat → Nat → Word
/-- The word read at an index of `K` outside `[0,64)`: no run from reset gets there (R33). -/
opaque Config.absentK : Nat → Nat → Word

end Sys2Proof
end

