-- ==== Sys2Proof/Syntax.lean ====
section
/-! DEFINITION. The operations of `spec/opcode_table.json`, one constructor per row: the seven operations of the
sequencer, the four command codes, the three host reads and the pseudo-operation `HASH`. -/

namespace Sys2Proof

/-- One row of the operation table each. Only `START` and `HASH` carry an operand, the whole message (R56, R57, R64). -/
inductive Instr where
  /-- `PAD` (R71): build the padded message. -/
  | pad
  /-- `LOAD` (R81): fetch block `BLK` into `W[0..15]`. -/
  | load
  /-- `EXPAND` (R86): compute one schedule word. -/
  | expand
  /-- `INITV` (R92): load the working variables. -/
  | initv
  /-- `ROUND` (R93): one of the 64 rounds. -/
  | round
  /-- `ACCUM` (R94): add the working variables into the hash state. -/
  | accum
  /-- `FORMAT` (R101): serialise and render the final hash state. -/
  | format
  /-- `NOP` (R107). -/
  | nop
  /-- `START(m)` (R105): hand over message `m` and begin hashing it. -/
  | start (m : List Byte)
  /-- `RESET` (R106): bring the core to `IDLE`. -/
  | reset
  /-- `RSVD` (R107): the reserved command code `0b11`. -/
  | rsvd
  /-- `RDSTATUS` (R108). -/
  | rdstatus
  /-- `RDDIGEST` (R109). -/
  | rddigest
  /-- `RDHEX` (R110). -/
  | rdhex
  /-- `HASH m` (R64): `START m`, `WAIT DONE`, `RDHEX`. -/
  | hash (m : List Byte)
deriving DecidableEq, Repr

end Sys2Proof
end

