-- ==== Sys2Proof/Decode.lean ====
section
/-! DEFINITION. How an operation is selected (30_encoding.md part (b)). The core has no instruction words: the sequencer's
operation is selected by the four bits of `PHASE` (R59), a host command by the two low bits of a write to `CMD` (R57,
R58), a host read by the name of the view (it has no numeric selector), `HASH` by its line of the script (R64). -/

namespace Sys2Proof

/-! ### The codes of `PHASE` (R59) -/

abbrev Phase.idle : BitVec 4 := 0x0#4
abbrev Phase.pad : BitVec 4 := 0x1#4
abbrev Phase.load : BitVec 4 := 0x2#4
abbrev Phase.expand : BitVec 4 := 0x3#4
abbrev Phase.initv : BitVec 4 := 0x4#4
abbrev Phase.round : BitVec 4 := 0x5#4
abbrev Phase.accum : BitVec 4 := 0x6#4
abbrev Phase.format : BitVec 4 := 0x7#4
abbrev Phase.done : BitVec 4 := 0x8#4

/-! ### What is decoded -/

/-- The three views the host can read (R24, R108 to R110). -/
inductive View where
  | status
  | digest
  | hex
deriving DecidableEq, Repr

/-- What the host can do to the core in one event (46_host_commands.md). -/
inductive HostEvent where
  /-- A write to the `CMD` port: the value on the bus, of any width, and the side operand `m` (R57). -/
  | command (bus : Nat) (m : List Byte)
  /-- The platform's reset input (R58, R135), alone or together with a command write (R124 item 2). -/
  | resetInput (presented : Option (Nat × List Byte))
  /-- A read of a view. -/
  | read (v : View)
  /-- The pseudo-operation `HASH m` (R64). -/
  | hash (m : List Byte)
deriving DecidableEq, Repr

/-- What selects the next operation: the sequencer's phase or an event of the host. -/
inductive Selector where
  | phase (code : BitVec 4)
  | host (e : HostEvent)
deriving DecidableEq, Repr

/-- Why a selector selects no operation: the quiescent phases and the reserved codes (R59, R61). -/
inductive NoOperation where
  | idle
  | done
  | reservedPhase (code : BitVec 4)
deriving DecidableEq, Repr

/-! ### Decoding -/

/-- R59: the operation the value of `PHASE` selects, or the name of the reason there is none. -/
def decodePhase (code : BitVec 4) : Except NoOperation Instr :=
  if code = Phase.idle then .error .idle
  else if code = Phase.pad then .ok .pad
  else if code = Phase.load then .ok .load
  else if code = Phase.expand then .ok .expand
  else if code = Phase.initv then .ok .initv
  else if code = Phase.round then .ok .round
  else if code = Phase.accum then .ok .accum
  else if code = Phase.format then .ok .format
  else if code = Phase.done then .error .done
  else .error (.reservedPhase code)

/-- R57, R58: the command a write to `CMD` carries. Only bits `[1:0]` count, the upper bits of the bus are ignored. -/
def decodeCommand (bus : Nat) (m : List Byte) : Instr :=
  let code := BitVec.ofNat 2 bus
  if code = 0b00#2 then .nop
  else if code = 0b01#2 then .start m
  else if code = 0b10#2 then .reset
  else .rsvd

/-- The operation an event of the host asks for. The reset input is `RESET` whatever is presented with it: `RESET` wins
(R124 item 2). -/
def decodeHost : HostEvent → Instr
  | .command bus m => decodeCommand bus m
  | .resetInput _ => .reset
  | .read .status => .rdstatus
  | .read .digest => .rddigest
  | .read .hex => .rdhex
  | .hash m => .hash m

/-- The decoder, total: an operation or the name of the reason there is none. -/
def decode : Selector → Except NoOperation Instr
  | .phase code => decodePhase code
  | .host e => .ok (decodeHost e)

/-! ### Encoding -/

/-- The selector of an operation, from the `match` column of `spec/opcode_table.json` and the tables of R58, R59. -/
def Instr.encode : Instr → Selector
  | .pad => .phase 0b0001#4
  | .load => .phase 0b0010#4
  | .expand => .phase 0b0011#4
  | .initv => .phase 0b0100#4
  | .round => .phase 0b0101#4
  | .accum => .phase 0b0110#4
  | .format => .phase 0b0111#4
  | .nop => .host (.command 0b00 [])
  | .start m => .host (.command 0b01 m)
  | .reset => .host (.command 0b10 [])
  | .rsvd => .host (.command 0b11 [])
  | .rdstatus => .host (.read .status)
  | .rddigest => .host (.read .digest)
  | .rdhex => .host (.read .hex)
  | .hash m => .host (.hash m)

/-! ### Words as the operation table numbers them -/

/-- The selector of a bare table word. A word of one or two bits is a `CMD` code, one of three or four a `PHASE` code.
The two code spaces overlap as plain numbers (`PAD` and `START` are both `0x1`), so a word padded to a whole byte
does not say which it is. The model's reading (log entry 8): `0x01` to `0x0f` are `PHASE` codes, `0x00` (no operation of
the sequencer) and every wider value are bus values of a `CMD` write, whose upper bits are ignored (R57). The message
operand is no part of the word (R57) and is empty. -/
def tableSelector (nbits w : Nat) : Selector :=
  if nbits ≤ 2 then .host (.command w [])
  else if nbits ≤ 4 then .phase (BitVec.ofNat 4 w)
  else if 0 < w ∧ w < 16 then .phase (BitVec.ofNat 4 w)
  else .host (.command w [])

/-- The operation the decoder reads from a table word, `none` where it selects none. -/
def decodeTableWord (nbits w : Nat) : Option Instr :=
  match decode (tableSelector nbits w) with
  | .ok i => some i
  | .error _ => none

end Sys2Proof
end

