-- ==== Sys2Proof/Machine/State.lean ====
section
/-! DEFINITION. The state of one core (R9) with the model's own host-side record, the reasons a step can stop, and the
state after reset (R25). Everything is plain data. The ROMs `K` and `IV` are constants (Machine/Rom.lean), `STATUS` is a
view of `PHASE` (Machine/Flags.lean), `CMD` is a port without storage (R22). -/

namespace Sys2Proof.Machine

/-- A byte store: (index, byte) pairs, the index strictly rising (`Memory.wf`, Machine/Ops.lean). An index that is not
listed holds no value (log entry 3). -/
abbrev Memory := List Host.Cell

/-- The working variables `a..h` (R15). -/
structure WorkVars where
  a : Word
  b : Word
  c : Word
  d : Word
  e : Word
  f : Word
  g : Word
  h : Word
deriving DecidableEq, Repr

/-- One line of a host script (R63): an event of the host, or how far the core runs before the next line. -/
inductive ScriptLine where
  /-- A command, a read or `HASH`: the host moves, the core does not. -/
  | event (e : HostEvent)
  /-- `RUN n`: let the core take `n` steps. -/
  | run (n : Nat)
  /-- `WAIT DONE`: let the core step until `STATUS.DONE = 1`. -/
  | waitDone
deriving DecidableEq, Repr

/-- What a read hands to the host (R108 to R110). -/
inductive Reply where
  | status (v : BitVec 8)
  | digest (d : Vector Byte 32)
  | hex (s : Vector Byte 64)
deriving DecidableEq, Repr

/-- The platform's parameter, then the core's state, element by element (R9), then the model's own three fields. -/
structure State where
  /-- `MAX_MSG_BYTES` (R5, D3), `none` for unbounded: a parameter of the platform, read by `START` and written by
  nothing (log entry 5). -/
  maxMsgBytes : Option Nat
  /-- `MSG` (R10). -/
  msg : Memory
  /-- `MSGLEN`, a natural number (R10). -/
  msgLen : Nat
  /-- `PMEM` (R11). -/
  pmem : Memory
  /-- `NBLK` (R12). -/
  nblk : Nat
  /-- `BLK` (R12). -/
  blk : Nat
  /-- `T`, 7 bits (R13). -/
  t : BitVec 7
  /-- `W[0..63]` (R14). -/
  w : Vector Word 64
  /-- `a..h` (R15). -/
  vars : WorkVars
  /-- `PHASE`, 4 bits (R16). -/
  phase : BitVec 4
  /-- `H[0..7]` (R17). -/
  h : Vector Word 8
  /-- `DIGEST[0..31]` (R18). -/
  digest : Vector Byte 32
  /-- `HEX[0..63]` (R19). -/
  hex : Vector Byte 64
  /-- The model's own: what the host will still do, first line first (R63; log entry 6). -/
  script : List ScriptLine
  /-- The model's own: what the reads returned to the host, oldest first (log entry 6). -/
  replies : List Reply
  /-- The model's own: how many draws of free values there have been (log entry 2). -/
  draws : Nat
deriving DecidableEq, Repr

/-- A fault of the machine. There is none, so the type is empty: "No operation and no host command raises an exception,
in any state, for any operand" (R120). Nothing raises one. -/
inductive Fault where
deriving DecidableEq, Repr

/-- Why the model gives no meaning to a move. -/
inductive Refusal where
  /-- Raised by an arm of `exec` whose operation has no meaning yet; no arm raises it in this model. Safe. -/
  | notModelled (mnemonic : String)
  /-- Raised by `START(m)` with `m` longer than `MAX_MSG_BYTES`: the host has no such move and "a model refuses it"
  (R105). With the default bound (none) it does not arise. Safe. -/
  | messageTooLong (length : Nat)
deriving DecidableEq, Repr

/-- The state right after reset, on a platform with the bound given: `PHASE` is `IDLE` (R25, R136). The spec gives no
other element a value; the zeros and empty stores here are the model's (log entry 1, DESIGN CHOICE, unsafe). The host has
no script. -/
def State.resetFor (bound : Option Nat) : State where
  maxMsgBytes := bound
  msg := []
  msgLen := 0
  pmem := []
  nblk := 0
  blk := 0
  t := 0#7
  w := Vector.replicate 64 0#32
  vars := ⟨0#32, 0#32, 0#32, 0#32, 0#32, 0#32, 0#32, 0#32⟩
  phase := Phase.idle
  h := Vector.replicate 8 0#32
  digest := Vector.replicate 32 0#8
  hex := Vector.replicate 64 0#8
  script := []
  replies := []
  draws := 0

/-- The state right after reset, the parameter at the spec's default (R5). -/
def State.reset : State := State.resetFor Config.maxMsgBytes

end Sys2Proof.Machine
end

