-- ==== Sys2Proof/Machine/Flags.lean ====
section
/-! DEFINITION. The core's flags (R23, R60): `BUSY` and `DONE`, functions of `PHASE`, read in `STATUS`. No operation of
the data path sets a condition code; carries are discarded (R97). -/

namespace Sys2Proof.Machine

/-- `BUSY`: the phase is one of the seven working phases (R23). -/
def phaseBusy (p : BitVec 4) : Bool :=
  p == Phase.pad || p == Phase.load || p == Phase.expand || p == Phase.initv || p == Phase.round
    || p == Phase.accum || p == Phase.format

/-- `DONE`: the phase is `DONE` (R23). -/
def phaseDone (p : BitVec 4) : Bool := p == Phase.done

/-- The phases in which `START` takes effect: `IDLE` and `DONE` (R105). A reserved code is neither (R61, U15). -/
def phaseQuiet (p : BitVec 4) : Bool := p == Phase.idle || p == Phase.done

/-- `STATUS` (R60): bits `[7:6]` zero, then `DONE`, `BUSY`, `PHASE`. -/
def statusOf (p : BitVec 4) : BitVec 8 :=
  (0#2 ++ BitVec.ofBool (phaseDone p) ++ BitVec.ofBool (phaseBusy p) ++ p : BitVec (2 + 1 + 1 + 4))

/-- The core has an enabled step (R16, R23). -/
def State.busy (s : State) : Bool := phaseBusy s.phase

/-- The digest is valid (R18, R23). -/
def State.isDone (s : State) : Bool := phaseDone s.phase

/-- `START` would take effect (R105). -/
def State.quiet (s : State) : Bool := phaseQuiet s.phase

/-- The value the host reads from `STATUS` (R23). -/
def State.status (s : State) : BitVec 8 := statusOf s.phase

/-- The level output `done`, equal to the `DONE` flag at every point (R123). -/
def State.doneOutput (s : State) : Bool := s.isDone

end Sys2Proof.Machine
end

