-- ==== Sys2Proof/Machine/Operands.lean ====
section
/-! DEFINITION. The word and byte primitives of R7 and R8, and the mixing functions built from them (R83, R90). Every
operand of the core is data of a stated width; there is no sign extension and no addressing mode (R56). -/

namespace Sys2Proof.Machine

/-! ### R7 -/

/-- Addition modulo `2^32`, the carry discarded. -/
def add32 (x y : Word) : Word := x + y

/-- `rotr(x, n)` for `0 < n < 32`: rotate right. -/
def rotr (x : Word) (n : Nat) : Word := (x >>> n) ||| (x <<< (32 - n))

/-- `shr(x, n)`: logical right shift, zero fill. -/
def shr (x : Word) (n : Nat) : Word := x >>> n

/-- `not32(x)`: complement on 32 bits. -/
def not32 (x : Word) : Word := x ^^^ 0xFFFFFFFF#32

/-! ### R8: byte order, big-endian throughout (R30) -/

/-- `be32(b0,b1,b2,b3)`: the first byte is the most significant. -/
def be32 (b0 b1 b2 b3 : Byte) : Word := b0 ++ b1 ++ b2 ++ b3

/-- `bytes_be(v, n)`: the `n` low bytes of `v`, most significant first. -/
def bytesBE (v n : Nat) : List Byte := (List.range n).map fun j => BitVec.ofNat 8 (v >>> (8 * (n - 1 - j)))

/-- Byte `j` of a word, `bytes_be(v, 4)[j]` (R53). -/
def wordByte (v : Word) (j : Nat) : Byte := (v >>> (8 * (3 - j))).setWidth 8

/-- `MemRead(space, addr, 4)` of the byte space whose byte `a` is `byteAt a` (R8, R52). -/
def memRead4 (byteAt : Nat → Byte) (addr : Nat) : Word :=
  be32 (byteAt addr) (byteAt (addr + 1)) (byteAt (addr + 2)) (byteAt (addr + 3))

/-- `hexdigit(d)`: the ASCII code of the lowercase hexadecimal digit (R55). -/
def hexdigit (d : BitVec 4) : Byte :=
  if d ≤ 9#4 then 0x30#8 + d.setWidth 8 else 0x57#8 + d.setWidth 8

/-! ### R83: the schedule's mixing functions -/

/-- `σ0`: two rotations and a shift. -/
def smallSigma0 (x : Word) : Word := rotr x 7 ^^^ rotr x 18 ^^^ shr x 3

/-- `σ1`: two rotations and a shift. -/
def smallSigma1 (x : Word) : Word := rotr x 17 ^^^ rotr x 19 ^^^ shr x 10

/-! ### R90: the round functions -/

/-- `Σ0`: three rotations. -/
def bigSigma0 (a : Word) : Word := rotr a 2 ^^^ rotr a 13 ^^^ rotr a 22

/-- `Σ1`: three rotations. -/
def bigSigma1 (e : Word) : Word := rotr e 6 ^^^ rotr e 11 ^^^ rotr e 25

/-- `Ch`: select. -/
def ch (e f g : Word) : Word := (e &&& f) ^^^ (not32 e &&& g)

/-- `Maj`: majority. -/
def maj (a b c : Word) : Word := (a &&& b) ^^^ (a &&& c) ^^^ (b &&& c)

end Sys2Proof.Machine
end

