-- ==== Sys2Proof/Machine/Sha.lean ====
section
/-! DEFINITION. The pure functions of the spec: `Pad` (R70), `Blocks` (R80), `Expand` (R85), `RoundFn` (R91), `Compress`
(R96), `Fold` and `SHA256hex` (R2), `Format` (R100). The operations PAD, ROUND and FORMAT call the function their rule
names; LOAD, EXPAND, INITV and ACCUM are written from their own pseudocode, and `Blocks`, `Expand`, `Compress`, `Fold`
stand here for the statements. -/

namespace Sys2Proof.Machine

/-! ### Padding (R50, R51, R70) -/

/-- `k = (55 - L) mod 64`, the value in `[0,64)`: the number of zero bytes (R50). -/
def padZeros (L : Nat) : Nat := (55 + (64 - L % 64)) % 64

/-- `LENV = (8 * L) mod 2^64`: the bit length, truncated (R51, R73). -/
def lengthField (L : Nat) : Nat := 8 * L % 2 ^ 64

/-- `Pad(M)` (R70). -/
def pad (m : List Byte) : List Byte :=
  m ++ [0x80#8] ++ List.replicate (padZeros m.length) 0x00#8 ++ bytesBE (lengthField m.length) 8

/-- `NBLK = (L + 1 + k + 8) / 64` (R71). -/
def blockCount (L : Nat) : Nat := (L + 1 + padZeros L + 8) / 64

/-! ### Blocks and schedule (R80, R84, R85) -/

/-- `Blocks(P)[b][i]` (R80). Every index is in range for `b < N` and `i < 16`, the rule's domain; outside it the function
is not used. -/
def blockWord (p : List Byte) (b i : Nat) : Word := memRead4 (fun a => p.getD a 0#8) (64 * b + 4 * i)

/-- The block `Blocks(P)[b]`, 16 words (R80). -/
def block (p : List Byte) (b : Nat) : List Word := (List.range 16).map (blockWord p b)

/-- R84, for the next index `t` of a schedule whose first `t >= 16` words are given. -/
def nextScheduleWord (ws : List Word) : Word :=
  let t := ws.length
  let tap := fun d => ws.getD (t - d) 0#32
  add32 (add32 (add32 (smallSigma1 (tap 2)) (tap 7)) (smallSigma0 (tap 15))) (tap 16)

/-- A block extended by `n` schedule words, in ascending order of the index (R85). -/
def extend (blk : List Word) : Nat → List Word
  | 0 => blk
  | n + 1 => extend blk n ++ [nextScheduleWord (extend blk n)]

/-- `Expand(B)`: the 64 words of the schedule (R85). -/
def expandBlock (blk : List Word) : List Word := extend blk 48

/-! ### Rounds (R91, R96) -/

/-- `RoundFn(v, k, w)` (R91): every right side uses the values from before the round. -/
def roundFn (v : WorkVars) (k w : Word) : WorkVars :=
  let temp1 := add32 (add32 (add32 (add32 v.h (bigSigma1 v.e)) (ch v.e v.f v.g)) k) w
  let temp2 := add32 (bigSigma0 v.a) (maj v.a v.b v.c)
  { a := add32 temp1 temp2, b := v.a, c := v.b, d := v.c
    e := add32 v.d temp1, f := v.e, g := v.f, h := v.g }

/-- `v0`: the working variables loaded from a hash state (R92, R96). -/
def varsOf (hin : Vector Word 8) : WorkVars :=
  { a := hin[0], b := hin[1], c := hin[2], d := hin[3], e := hin[4], f := hin[5], g := hin[6], h := hin[7] }

/-- `v(t)`: the working variables after `t` rounds (R96), `t <= 64`. -/
def roundsUpTo (hin : Vector Word 8) (ws : List Word) : Nat → WorkVars
  | 0 => varsOf hin
  | t + 1 => roundFn (roundsUpTo hin ws t) (romK.getD t 0#32) (ws.getD t 0#32)

/-- `H[i] + v[i]` for the eight words (R94, R96). -/
def addVars (hin : Vector Word 8) (v : WorkVars) : Vector Word 8 :=
  #v[add32 hin[0] v.a, add32 hin[1] v.b, add32 hin[2] v.c, add32 hin[3] v.d,
     add32 hin[4] v.e, add32 hin[5] v.f, add32 hin[6] v.g, add32 hin[7] v.h]

/-- `Compress(Hin, W)` (R96). -/
def compress (hin : Vector Word 8) (ws : List Word) : Vector Word 8 := addVars hin (roundsUpTo hin ws 64)

/-- The chaining value after the first `n` blocks of a padded message; `chain p N` is `Fold` (R2). -/
def chain (p : List Byte) : Nat → Vector Word 8
  | 0 => romIV
  | b + 1 => compress (chain p b) (expandBlock (block p b))

/-- `Fold(Blocks(Pad(M)))` (R2). -/
def finalHash (m : List Byte) : Vector Word 8 := chain (pad m) (blockCount m.length)

/-! ### Formatting (R53, R54, R100) -/

/-- `D` of `Format` (R53, R100): word `i` at bytes `4i..4i+3`, most significant byte first. -/
def digestOf (h : Vector Word 8) : Vector Byte 32 :=
  Vector.ofFn fun n => wordByte (h[n.val / 4]'(by omega)) (n.val % 4)

/-- The string of 32 digest bytes (R54): two digits a byte, high nibble first. -/
def hexOf (d : Vector Byte 32) : Vector Byte 64 :=
  Vector.ofFn fun m =>
    hexdigit ((d[m.val / 2]'(by omega)).extractLsb' (if m.val % 2 = 0 then 4 else 0) 4)

/-- `SHA256hex(M)` (R2). -/
def sha256hex (m : List Byte) : Vector Byte 64 := hexOf (digestOf (finalHash m))

end Sys2Proof.Machine
end

