-- ==== Sys2Proof/WellFormed.lean ====
section
/-! DEFINITION. The one check an operation has to pass: the message of `START` and `HASH` is no longer than
`MAX_MSG_BYTES` (R57, R105). Every byte value is legal (R61), so nothing else can be ill-formed. -/

namespace Sys2Proof

/-- `len(m) <= MAX_MSG_BYTES`, for the bound given; `none` is "unbounded" (R5, D3). -/
def messageFits : Option Nat → List Byte → Bool
  | none, _ => true
  | some bound, m => decide (m.length ≤ bound)

/-- The operation can be offered on a platform with the bound given (R105): in a state `s` the bound is
`s.maxMsgBytes`. -/
def Instr.wellFormedFor (bound : Option Nat) : Instr → Bool
  | .start m => messageFits bound m
  | .hash m => messageFits bound m
  | .pad | .load | .expand | .initv | .round | .accum | .format
  | .nop | .reset | .rsvd | .rdstatus | .rddigest | .rdhex => true

end Sys2Proof
end

