-- ==== Sys2Proof/Machine/Ops.lean ====
section
/-! DEFINITION. The operations over the state that the meanings share: byte stores, register files, phase successors,
START, RESET and the reads. There is no exception to take and none to return from: the set of exceptions is empty (R120),
there is no trap entry (R125) and no trap return (R126); the one transfer of control from outside is `resetTo` (R106). -/

namespace Sys2Proof.Machine

/-! ### Byte stores -/

/-- The canonical form: indexes strictly rising. An index not listed holds no value, so no entry can equal it. -/
abbrev Memory.wf (m : Memory) : Prop := m.Pairwise fun c d => c.1 < d.1

/-- The byte at an index, `none` where the store holds no value. -/
def Memory.read? : Memory → Nat → Option Byte
  | [], _ => none
  | (k, b) :: m, a => if k = a then some b else Memory.read? m a

/-- The store that holds the bytes given at consecutive indexes from `start` and nothing else. -/
def Memory.ofBytesFrom (start : Nat) : List Byte → Memory
  | [] => []
  | b :: bs => (start, b) :: Memory.ofBytesFrom (start + 1) bs

/-- The store whose byte `j` is the `j`th byte given: the assignment of a whole byte sequence to `MSG` or `PMEM`. -/
def Memory.ofBytes (bs : List Byte) : Memory := Memory.ofBytesFrom 0 bs

/-- `MSG[j]`; a free value where `MSG` holds none (R28). -/
def State.msgByte (s : State) (j : Nat) : Byte := (s.msg.read? j).getD (Config.absentMsg s.draws j)

/-- `PMEM[j]`; a free value where `PMEM` holds none (R28). -/
def State.pmemByte (s : State) (j : Nat) : Byte := (s.pmem.read? j).getD (Config.absentPmem s.draws j)

/-- `MSG[0..MSGLEN-1]`. -/
def State.msgBytes (s : State) : List Byte := (List.range s.msgLen).map s.msgByte

/-! ### Register files and the round-constant ROM, at the index `T` -/

/-- `W[T - d]`, for the taps of EXPAND (`d` in 2, 7, 15, 16) and for ROUND (`d = 0`). A free value where there is no such
register, which `16 <= T <= 63` (EXPAND) and `T <= 63` (ROUND) rule out (R27). -/
def State.schedule (s : State) (d : Nat) : Word :=
  if d ≤ s.t.toNat then (s.w[s.t.toNat - d]?).getD (Config.absentW s.draws s.t.toNat d)
  else Config.absentW s.draws s.t.toNat d

/-- `K[T]` (R20); a free value where there is no such word, which `T <= 63` rules out (R27). -/
def State.roundConst (s : State) : Word := (romK[s.t.toNat]?).getD (Config.absentK s.draws s.t.toNat)

/-- R84 at `t = T`: the word EXPAND writes. -/
def State.expandWord (s : State) : Word :=
  add32 (add32 (add32 (smallSigma1 (s.schedule 2)) (s.schedule 7)) (smallSigma0 (s.schedule 15))) (s.schedule 16)

/-- `W` after LOAD: `W[i] <- MemRead(PMEM, 64*BLK + 4*i, 4)` for `i` in `[0,16)`, the rest kept (R81). -/
def State.loadedSchedule (s : State) : Vector Word 64 :=
  Vector.ofFn fun i => if i.val < 16 then memRead4 s.pmemByte (64 * s.blk + 4 * i.val) else s.w[i.val]

/-! ### Successor phases (R16, R59) -/

/-- After EXPAND: `INITV` if `T = 63` before the step, else `EXPAND`. -/
def afterExpand (t : BitVec 7) : BitVec 4 := if t = 63#7 then Phase.initv else Phase.expand

/-- After ROUND: `ACCUM` if `T = 63` before the step, else `ROUND`. -/
def afterRound (t : BitVec 7) : BitVec 4 := if t = 63#7 then Phase.accum else Phase.round

/-- After ACCUM: `FORMAT` if `BLK + 1 = NBLK` before the step, else `LOAD`. -/
def afterAccum (blk nblk : Nat) : BitVec 4 := if blk + 1 = nblk then Phase.format else Phase.load

/-! ### Host side -/

/-- The state with the host's remaining script replaced. -/
def State.withScript (s : State) (lines : List ScriptLine) : State := { s with script := lines }

/-- The state with one more reply handed to the host. A read changes nothing of the core (R32). -/
def State.reply (s : State) (r : Reply) : State := { s with replies := s.replies ++ [r] }

/-- The state with one draw of free values used up. -/
def State.countDraw (s : State) : State := { s with draws := s.draws + 1 }

/-- What an effective `START(m)` does (R105): `DIGEST` and `HEX` become unspecified. -/
def State.beginMessage (s : State) (m : List Byte) : State :=
  { s with
    msg := Memory.ofBytes m
    msgLen := m.length
    h := romIV
    blk := 0
    digest := Config.freeDigest s.draws
    hex := Config.freeHex s.draws
    phase := Phase.pad
    draws := s.draws + 1 }

/-- `START(m)` on a platform with the bound given (R105): refused when the message cannot be offered, effective in `IDLE`
and `DONE`, without effect in every other phase. -/
def startWithin (bound : Option Nat) (m : List Byte) (s : State) : Host.Outcome State Fault Refusal :=
  if messageFits bound m then .next (if s.quiet then s.beginMessage m else s)
  else .refused (.messageTooLong m.length)

/-- The reset event (R106, R135): `PHASE` is `IDLE`, every other element of the core is unspecified. What the host still
intends to do and what it has been told are the host's own. -/
def State.resetTo (s : State) : State :=
  { s with
    msg := Memory.ofBytes (Config.freeMsg s.draws)
    msgLen := Config.freeMsgLen s.draws
    pmem := Memory.ofBytes (Config.freePmem s.draws)
    nblk := Config.freeNblk s.draws
    blk := Config.freeBlk s.draws
    t := Config.freeT s.draws
    w := Config.freeW s.draws
    vars := varsOf (Config.freeVars s.draws)
    phase := Phase.idle
    h := Config.freeH s.draws
    digest := Config.freeDigest s.draws
    hex := Config.freeHex s.draws
    draws := s.draws + 1 }

/-- A read of `DIGEST` (R109): the stored bytes in `DONE`, a fresh draw in every other phase. -/
def State.replyDigest (s : State) : State :=
  if s.isDone then s.reply (.digest s.digest)
  else (s.reply (.digest (Config.freeDigestRead s.draws))).countDraw

/-- A read of `HEX` (R110): as `replyDigest`. -/
def State.replyHex (s : State) : State :=
  if s.isDone then s.reply (.hex s.hex)
  else (s.reply (.hex (Config.freeHexRead s.draws))).countDraw

/-- The lines `HASH m` stands for (R64). -/
def hashScript (m : List Byte) : List ScriptLine :=
  [.event (.command 0b01 m), .waitDone, .event (.read .hex)]

end Sys2Proof.Machine
end

