-- ==== Sys2Proof/Machine/Compression.lean ====
section
/-! DEFINITION. Unit 3, the compression engine: INITV, ROUND, ACCUM (44_compression.md). -/

namespace Sys2Proof.Machine

/-- `INITV` (R92): `a..h <- H[0..7]`, `T <- 0`, `PHASE <- ROUND`. -/
def execInitv (s : State) : Host.Outcome State Fault Refusal :=
  .next { s with vars := varsOf s.h, t := 0#7, phase := Phase.round }

/-- `ROUND` (R93): `(a..h) <- RoundFn((a..h), K[T], W[T])`, `T <- T + 1`, and on to `ACCUM` after `T = 63`. -/
def execRound (s : State) : Host.Outcome State Fault Refusal :=
  .next { s with
    vars := roundFn s.vars s.roundConst (s.schedule 0)
    t := s.t + 1#7
    phase := afterRound s.t }

/-- `ACCUM` (R94): `H[i] <- H[i] + (a..h)[i]`, `BLK <- BLK + 1`, and on to `FORMAT` after the last block, else `LOAD`. -/
def execAccum (s : State) : Host.Outcome State Fault Refusal :=
  .next { s with
    h := addVars s.h s.vars
    blk := s.blk + 1
    phase := afterAccum s.blk s.nblk }

end Sys2Proof.Machine
end

