-- ==== Sys2Proof/Machine/Formatter.lean ====
section
/-! DEFINITION. Unit 4, the digest formatter: FORMAT (45_digest_formatter.md). -/

namespace Sys2Proof.Machine

/-- `FORMAT` (R101): `(DIGEST, HEX) <- Format(H)`, `PHASE <- DONE`. -/
def execFormat (s : State) : Host.Outcome State Fault Refusal :=
  .next { s with
    digest := digestOf s.h
    hex := hexOf (digestOf s.h)
    phase := Phase.done }

end Sys2Proof.Machine
end

