-- ==== Sys2Proof/Machine/HostCommands.lean ====
section
/-! DEFINITION. The host's commands and reads: NOP, START, RESET, the reserved code, RDSTATUS, RDDIGEST, RDHEX, and the
pseudo-operation HASH (46_host_commands.md, R64). -/

namespace Sys2Proof.Machine

/-- `NOP` (R107): no state changes, in any phase. -/
def execNop (s : State) : Host.Outcome State Fault Refusal := .next s

/-- `START(m)` (R105) within the platform's `MAX_MSG_BYTES`. -/
def execStart (m : List Byte) (s : State) : Host.Outcome State Fault Refusal :=
  startWithin s.maxMsgBytes m s

/-- `RESET` (R106): effective in every phase. -/
def execReset (s : State) : Host.Outcome State Fault Refusal := .next s.resetTo

/-- The reserved code (R107): no state changes, in any phase. The spec also lets a model refuse it; here it runs. -/
def execRsvd (s : State) : Host.Outcome State Fault Refusal := .next s

/-- `RDSTATUS` (R108): the host is told `STATUS`; nothing of the core changes. -/
def execRdstatus (s : State) : Host.Outcome State Fault Refusal := .next (s.reply (.status s.status))

/-- `RDDIGEST` (R109). -/
def execRddigest (s : State) : Host.Outcome State Fault Refusal := .next s.replyDigest

/-- `RDHEX` (R110). -/
def execRdhex (s : State) : Host.Outcome State Fault Refusal := .next s.replyHex

/-- `HASH m` (R64): the line is replaced in the host's script by the lines it stands for. -/
def execHash (m : List Byte) (s : State) : Host.Outcome State Fault Refusal :=
  .next (s.withScript (hashScript m ++ s.script))

end Sys2Proof.Machine
end

