-- ==== Sys2Proof/Machine/Preprocessor.lean ====
section
/-! DEFINITION. Unit 1, the message preprocessor: PAD (41_preprocessor.md). -/

namespace Sys2Proof.Machine

/-- `PAD` (R71): `PMEM <- Pad(MSG[0..MSGLEN-1])`, `NBLK <- (L + 1 + k + 8) / 64`, `PHASE <- LOAD`. -/
def execPad (s : State) : Host.Outcome State Fault Refusal :=
  .next { s with
    pmem := Memory.ofBytes (pad s.msgBytes)
    nblk := blockCount s.msgLen
    phase := Phase.load }

end Sys2Proof.Machine
end

