-- ==== Sys2Proof/Machine/Schedule.lean ====
section
/-! DEFINITION. Unit 2, the word-schedule expander: LOAD (42_block_load.md) and EXPAND (43_schedule_expander.md). -/

namespace Sys2Proof.Machine

/-- `LOAD` (R81): the 16 big-endian words of block `BLK` into `W[0..15]`, `T <- 16`, `PHASE <- EXPAND`. -/
def execLoad (s : State) : Host.Outcome State Fault Refusal :=
  .next { s with w := s.loadedSchedule, t := 16#7, phase := Phase.expand }

/-- `EXPAND` (R86): one schedule word, `W[T]`, `T <- T + 1`, and on to `INITV` after `T = 63`. -/
def execExpand (s : State) : Host.Outcome State Fault Refusal :=
  .next { s with
    w := s.w.setIfInBounds s.t.toNat s.expandWord
    t := s.t + 1#7
    phase := afterExpand s.t }

end Sys2Proof.Machine
end

