-- ==== Sys2Proof/Machine/Dispatch.lean ====
section
/-! DEFINITION. One arm per operation of the table. -/

namespace Sys2Proof.Machine

def exec (i : Instr) (s : State) : Host.Outcome State Fault Refusal :=
  match i with
  | .pad => Sys2Proof.Machine.execPad s
  | .load => Sys2Proof.Machine.execLoad s
  | .expand => Sys2Proof.Machine.execExpand s
  | .initv => Sys2Proof.Machine.execInitv s
  | .round => Sys2Proof.Machine.execRound s
  | .accum => Sys2Proof.Machine.execAccum s
  | .format => Sys2Proof.Machine.execFormat s
  | .nop => Sys2Proof.Machine.execNop s
  | .start m => Sys2Proof.Machine.execStart m s
  | .reset => Sys2Proof.Machine.execReset s
  | .rsvd => Sys2Proof.Machine.execRsvd s
  | .rdstatus => Sys2Proof.Machine.execRdstatus s
  | .rddigest => Sys2Proof.Machine.execRddigest s
  | .rdhex => Sys2Proof.Machine.execRdhex s
  | .hash m => Sys2Proof.Machine.execHash m s

end Sys2Proof.Machine
end

