-- ==== Sys2Proof/Machine/Fetch.lean ====
section
/-! DEFINITION. Who moves next and with what (R16, R35, R36): the host's script says, line by line, whether the host acts
or the core steps; with no line left the core steps. -/

namespace Sys2Proof.Machine

/-- What the machine does next and the state from which it does it, the line of the script it uses taken off: an
operation to decode and run, or nothing but going on to the next line. -/
inductive Fetched where
  | operation (sel : Selector) (s : State)
  | nextLine (s : State)
deriving DecidableEq, Repr

/-- R63. An event line is an event of the host. `RUN n` gives the core `n` steps, and `WAIT DONE` gives it steps until
`PHASE` is `DONE`; either then goes on to the next line in a step of its own. With the script used up the core steps. -/
def State.fetch (s : State) : Fetched :=
  match s.script with
  | [] => .operation (.phase s.phase) s
  | .event e :: rest => .operation (.host e) (s.withScript rest)
  | .run 0 :: rest => .nextLine (s.withScript rest)
  | .run (n + 1) :: rest => .operation (.phase s.phase) (s.withScript (.run n :: rest))
  | .waitDone :: rest =>
    if s.isDone then .nextLine (s.withScript rest) else .operation (.phase s.phase) s

/-- The state in which the selector given is what the machine fetches next: a `PHASE` code goes into `PHASE`, with a line
`RUN 1` before the host's script; an event goes before the host's script. -/
def State.placeSelector (s : State) : Selector → State
  | .phase code => { s with phase := code, script := .run 1 :: s.script }
  | .host e => { s with script := .event e :: s.script }

end Sys2Proof.Machine
end

