-- ==== Sys2Proof/Machine/Step.lean ====
section
/-! DEFINITION. One step of the machine: one event of the host or one step of the core, in one total order (R35, R36). -/

namespace Sys2Proof.Machine

/-- Fetch, decode, run. Where the core steps in a phase that selects no operation (`IDLE`, `DONE`, a reserved code) there
is no enabled step and it holds its state (R16, R61, R132). -/
def step (s : State) : Host.Outcome State Fault Refusal :=
  match s.fetch with
  | .nextLine s' => .next s'
  | .operation sel s' =>
    match decode sel with
    | .ok i => exec i s'
    | .error _ => .next s'

/-- The state in which the table word given is what `step` fetches next (log entry 8). -/
def State.withFetchWord (s : State) (nbits w : Nat) : State := s.placeSelector (tableSelector nbits w)

end Sys2Proof.Machine
end

