-- ==== Sys2Proof/Safety.lean ====
section
/-! DEFINITION. The terms the statements are made in: runs, the range invariants of R27, what a run in progress has
computed so far (R87, R98), and which moves of the host leave a run alone (R111). -/

namespace Sys2Proof.Machine

/-- The machine of a platform with the bound `MAX_MSG_BYTES` given (R5): the same step, from the reset state with that
parameter. `Sys2Proof.core` is the one with the default. -/
def coreFor (bound : Option Nat) : Host.Core where
  State := State
  Fault := Fault
  Refusal := Refusal
  step := step
  reset := State.resetFor bound

/-- `n` steps of the machine, stopping at the first step that does not answer a next state. -/
def runSteps : Nat → State → Host.Outcome State Fault Refusal
  | 0, s => .next s
  | n + 1, s =>
    match step s with
    | .next t => runSteps n t
    | .fault r => .fault r
    | .refused r => .refused r

/-- `PHASE` is one of the nine codes (R27). -/
def phaseLegal (p : BitVec 4) : Bool := phaseQuiet p || phaseBusy p

/-- `PHASE` is `LOAD`, `EXPAND`, `INITV`, `ROUND` or `ACCUM`: a block is in work (R27). -/
def phaseInBlock (p : BitVec 4) : Bool :=
  p == Phase.load || p == Phase.expand || p == Phase.initv || p == Phase.round || p == Phase.accum

/-- `MSG` and `MSGLEN` hold the message `m` (R10). -/
def State.holdsMessage (s : State) (m : List Byte) : Prop := s.msg = Memory.ofBytes m ∧ s.msgLen = m.length

/-- The range invariants of R27, and what makes them hold at the first block: in `PAD`, `BLK` is 0; while the core is
busy, `MSG` and `MSGLEN` hold a message. -/
structure RangeInvariant (s : State) : Prop where
  legal : phaseLegal s.phase = true
  message : s.busy = true → ∃ m, s.holdsMessage m
  first : s.phase = Phase.pad → s.blk = 0
  inBlock : phaseInBlock s.phase = true → s.blk < s.nblk ∧ 1 ≤ s.nblk ∧ s.pmem.length = 64 * s.nblk ∧
    ∃ m, s.holdsMessage m ∧ s.pmem = Memory.ofBytes (pad m)
  expand : s.phase = Phase.expand → 16 ≤ s.t.toNat ∧ s.t.toNat ≤ 63
  round : s.phase = Phase.round → s.t.toNat ≤ 63
  between : s.phase = Phase.initv ∨ s.phase = Phase.accum → s.t = 64#7
  finished : s.phase = Phase.format ∨ s.phase = Phase.done → s.blk = s.nblk

/-- `0 <= L <= MAX_MSG_BYTES` for the message length the core holds (R9, R10). -/
def State.lengthFits (s : State) : Prop := ∀ bound, s.maxMsgBytes = some bound → s.msgLen ≤ bound

/-- The schedule of the block in work. -/
def State.blockSchedule (s : State) (m : List Byte) : List Word := expandBlock (block (pad m) s.blk)

/-- The core hashes, or has hashed, the message `m`: each element holds what the spec's functions give at this point of
the run (R87, R98). -/
structure Tracks (s : State) (m : List Byte) : Prop where
  legal : s.busy = true ∨ s.isDone = true
  message : s.holdsMessage m
  padding : s.phase = Phase.pad → s.blk = 0 ∧ s.h = romIV
  padded : s.phase ≠ Phase.pad → s.pmem = Memory.ofBytes (pad m) ∧ s.nblk = blockCount m.length
  inBlock : phaseInBlock s.phase = true → s.blk < s.nblk ∧ s.h = chain (pad m) s.blk
  expand : s.phase = Phase.expand → 16 ≤ s.t.toNat ∧ s.t.toNat ≤ 63 ∧
    ∀ i, i < s.t.toNat → s.w[i]? = (extend (block (pad m) s.blk) (s.t.toNat - 16))[i]?
  initv : s.phase = Phase.initv → s.t = 64#7 ∧ s.w.toList = s.blockSchedule m
  round : s.phase = Phase.round → s.t.toNat ≤ 63 ∧ s.w.toList = s.blockSchedule m ∧
    s.vars = roundsUpTo s.h (s.blockSchedule m) s.t.toNat
  accum : s.phase = Phase.accum → s.t = 64#7 ∧ s.w.toList = s.blockSchedule m ∧
    s.vars = roundsUpTo s.h (s.blockSchedule m) 64
  finished : s.phase = Phase.format ∨ s.phase = Phase.done → s.blk = s.nblk ∧ s.h = finalHash m
  done : s.phase = Phase.done → s.digest = digestOf (finalHash m) ∧ s.hex = sha256hex m

/-- Every run in progress and every digest on show belongs to the message the core holds. -/
def DigestInvariant (s : State) : Prop := s.phase = Phase.idle ∨ ∃ m, Tracks s m

/-- The next move is an event of the host that ends or replaces what the core is doing: `RESET`, or a `START` that takes
effect (R111). -/
def State.restarts (s : State) : Bool :=
  match s.script with
  | .event e :: _ =>
    match decodeHost e with
    | .reset => true
    | .start _ => s.quiet
    | _ => false
  | _ => false

/-- The next move is a step of the core, one of the seven operations (R111 item 1, R148). -/
def State.coreMoves (s : State) : Bool :=
  match s.fetch with
  | .operation (.phase _) _ => s.busy
  | .operation (.host _) _ => false
  | .nextLine _ => false

/-- How many of the next `n` steps are steps of the core. -/
def coreStepsIn : Nat → State → Nat
  | 0, _ => 0
  | n + 1, s =>
    (if s.coreMoves then 1 else 0) +
    match step s with
    | .next t => coreStepsIn n t
    | .fault _ => 0
    | .refused _ => 0

/-- The two states have the same core: they differ at most in the host's script, the replies and the draw counter. -/
def State.sameCore (s t : State) : Prop :=
  { s with script := t.script, replies := t.replies, draws := t.draws } = t

end Sys2Proof.Machine
end

