-- ==== Sys2Proof/Certificates/Slice0/Obligations.lean ====
section
/-! DEFINITION. The statements for the provers, each from the rules of spec/ named in its docstring and in
OBLIGATIONS.json. "Everything else is unchanged" is written by putting the old values of the written elements back into
the new state: the result is the old state. -/

open Sys2Proof Sys2Proof.Machine

/-! ### Selection and stepping -/

/-- Decoding gives back the operation encoded, whatever its message (a bound on its length is no part of the encoding,
R57); a `PHASE` code decodes to an operation exactly when it is that operation's
code; no two operations share a selector. -/
def Obligations.EncodingIsFaithful : Prop :=
  (∀ i : Instr, decode i.encode = .ok i) ∧
  (∀ (code : BitVec 4) (i : Instr), decode (.phase code) = .ok i ↔ i.encode = .phase code) ∧
  (∀ i j : Instr, i.encode = j.encode → i = j)

/-- The command codes of R58, at every bus value: only the two low bits count (R57). The reset input is `RESET` whatever
command is presented with it (R58, R124 item 2; that the model lets it win over every command is log entry 7). -/
def Obligations.CommandCodesSelectCommands : Prop :=
  (∀ (bus : Nat) (m : List Byte), decode (.host (.command bus m)) =
    .ok (if bus % 4 = 0 then .nop else if bus % 4 = 1 then .start m else if bus % 4 = 2 then .reset else .rsvd)) ∧
  (∀ p, decode (.host (.resetInput p)) = .ok .reset)

/-- Words written out from the tables of R58 and R59: the seven working phases, the two quiescent phases, the reserved
codes, the four command codes. -/
def Obligations.TableCodesDecode : Prop :=
  decode (.phase 0b0001#4) = .ok .pad ∧ decode (.phase 0b0010#4) = .ok .load ∧
  decode (.phase 0b0011#4) = .ok .expand ∧ decode (.phase 0b0100#4) = .ok .initv ∧
  decode (.phase 0b0101#4) = .ok .round ∧ decode (.phase 0b0110#4) = .ok .accum ∧
  decode (.phase 0b0111#4) = .ok .format ∧ decode (.phase 0b0000#4) = .error .idle ∧
  decode (.phase 0b1000#4) = .error .done ∧ decode (.phase 0b1001#4) = .error (.reservedPhase 0b1001#4) ∧
  decode (.phase 0b1111#4) = .error (.reservedPhase 0b1111#4) ∧
  decode (.host (.command 0b00 [])) = .ok .nop ∧ decode (.host (.command 0b01 [0x61#8])) = .ok (.start [0x61#8]) ∧
  decode (.host (.command 0b10 [])) = .ok .reset ∧ decode (.host (.command 0b11 [])) = .ok .rsvd

/-- A table word placed for fetching is run by the very next step, on the state it was placed in (a `PHASE` code in
`PHASE`). The reading of a bare table word is the model's (log entry 8). -/
def Obligations.PlacedWordIsRun : Prop :=
  ∀ (s : State) (nbits w : Nat) (i : Instr), decodeTableWord nbits w = some i →
    ∃ u, step (s.withFetchWord nbits w) = exec i u ∧
      (u = s ∨ ∃ code, i.encode = .phase code ∧ u = { s with phase := code, script := .run 0 :: s.script })

/-- One step runs the operation its selector decodes to: an event of the host on the state without that line, the
sequencer's operation on the state as it is. That an event is one line of a script in State and its line is taken off is
the model's (log entry 6), and so is that with no line left the core steps (log entry 17). -/
def Obligations.StepRunsDecodedOperation : Prop :=
  (∀ (s : State) (e : HostEvent) (rest : List ScriptLine) (i : Instr),
    s.script = .event e :: rest → decode (.host e) = .ok i → step s = exec i { s with script := rest }) ∧
  (∀ (s : State) (i : Instr), s.script = [] → decode (.phase s.phase) = .ok i → step s = exec i s)

/-- `RUN n` and `WAIT DONE` let the core step as R63 says, the line that is used up taking a step of its own (log entry 6).
A phase that selects no operation gives the core no step (R16, R61, R132); that the machine then makes a step in which
the core holds its state is log entry 9 (DEDUCED). -/
def Obligations.ScriptLinesPaceTheCore : Prop :=
  ∀ (s : State) (rest : List ScriptLine),
    (s.script = .run 0 :: rest → step s = .next { s with script := rest }) ∧
    (∀ n i, s.script = .run (n + 1) :: rest → decode (.phase s.phase) = .ok i →
      step s = exec i { s with script := .run n :: rest }) ∧
    (∀ n r, s.script = .run (n + 1) :: rest → decode (.phase s.phase) = .error r →
      step s = .next { s with script := .run n :: rest }) ∧
    (s.script = .waitDone :: rest → s.phase = Phase.done → step s = .next { s with script := rest }) ∧
    (∀ i, s.script = .waitDone :: rest → decode (.phase s.phase) = .ok i → step s = exec i s) ∧
    (∀ r, s.script = .waitDone :: rest → s.phase ≠ Phase.done → decode (.phase s.phase) = .error r → step s = .next s)

/-- R59, row by row: the operation each code selects and its successor; the reserved codes select none (R61). Stated
where it is the core's turn (no line left, log entry 17); `START` with a message the platform can offer (log entry 5).
That the machine makes a step, which changes nothing, in `IDLE`, `DONE` and the reserved codes is the model's (log entry 9,
DEDUCED; for the reserved codes also log entry 14). -/
def Obligations.SequencerFollowsItsTable : Prop :=
  ∀ s : State, s.script = [] →
    (s.phase = 0x0#4 → step s = .next s ∧ ∀ m, messageFits s.maxMsgBytes m = true →
      ∃ t, exec (.start m) s = .next t ∧ t.phase = 0x1#4) ∧
    (s.phase = 0x1#4 → step s = exec .pad s ∧ ∃ t, step s = .next t ∧ t.phase = 0x2#4) ∧
    (s.phase = 0x2#4 → step s = exec .load s ∧ ∃ t, step s = .next t ∧ t.phase = 0x3#4) ∧
    (s.phase = 0x3#4 → step s = exec .expand s ∧
      ∃ t, step s = .next t ∧ t.phase = if s.t ≠ 63#7 then 0x3#4 else 0x4#4) ∧
    (s.phase = 0x4#4 → step s = exec .initv s ∧ ∃ t, step s = .next t ∧ t.phase = 0x5#4) ∧
    (s.phase = 0x5#4 → step s = exec .round s ∧
      ∃ t, step s = .next t ∧ t.phase = if s.t ≠ 63#7 then 0x5#4 else 0x6#4) ∧
    (s.phase = 0x6#4 → step s = exec .accum s ∧
      ∃ t, step s = .next t ∧ t.phase = if s.blk + 1 ≠ s.nblk then 0x2#4 else 0x7#4) ∧
    (s.phase = 0x7#4 → step s = exec .format s ∧ ∃ t, step s = .next t ∧ t.phase = 0x8#4) ∧
    (s.phase = 0x8#4 → step s = .next s ∧ ∀ m, messageFits s.maxMsgBytes m = true →
      ∃ t, exec (.start m) s = .next t ∧ t.phase = 0x1#4) ∧
    (0x9#4 ≤ s.phase → step s = .next s)

/-- R132: in `IDLE` and `DONE` the core has no enabled step and holds its state. That the machine then still makes a step,
which changes nothing, is log entry 9. -/
def Obligations.QuiescentCoreHoldsState : Prop :=
  ∀ s : State, s.script = [] → s.phase = Phase.idle ∨ s.phase = Phase.done → step s = .next s

/-- R120: no operation, no command and no read ends in an error, in any state and for any operand that can be offered
(R105: a message within `MAX_MSG_BYTES`); and no step does, but that the model refuses a line with a `START` the platform
cannot offer (R105, log entry 5). -/
def Obligations.NoOperationEndsInAnError : Prop :=
  (∀ (i : Instr) (s : State), i.wellFormedFor s.maxMsgBytes = true → ∃ t, exec i s = .next t) ∧
  ∀ s : State, (∃ t, step s = .next t) ∨
    ∃ e rest m, s.script = .event e :: rest ∧ decodeHost e = .start m ∧ messageFits s.maxMsgBytes m = false ∧
      step s = .refused (.messageTooLong m.length)

/-- R35 items 1 to 4, R143 to R145: a phase is entered only from the phase before it, at the end of its loop. -/
def Obligations.NoTransitionIsSkipped : Prop :=
  ∀ s t : State, step s = .next t → t.phase ≠ s.phase →
    (t.phase = Phase.load → s.phase = Phase.pad ∨ s.phase = Phase.accum ∧ s.blk + 1 ≠ s.nblk) ∧
    (t.phase = Phase.expand → s.phase = Phase.load) ∧
    (t.phase = Phase.initv → s.phase = Phase.expand ∧ s.t = 63#7) ∧
    (t.phase = Phase.round → s.phase = Phase.initv) ∧
    (t.phase = Phase.accum → s.phase = Phase.round ∧ s.t = 63#7) ∧
    (t.phase = Phase.format → s.phase = Phase.accum ∧ s.blk + 1 = s.nblk) ∧
    (t.phase = Phase.done → s.phase = Phase.format) ∧
    (t.phase = Phase.pad → s.phase = Phase.idle ∨ s.phase = Phase.done) ∧
    (t.phase = Phase.idle → ∃ e rest, s.script = .event e :: rest ∧ decodeHost e = .reset)

/-! ### Primitives and formats -/

/-- R7: the word primitives, by value and bit by bit. -/
def Obligations.WordPrimitives : Prop :=
  (∀ x y : Word, (add32 x y).toNat = (x.toNat + y.toNat) % 2 ^ 32) ∧
  (∀ (x : Word) (n : Nat), 0 < n → n < 32 →
    rotr x n = x.rotateRight n ∧ (∀ i, i < 32 → (rotr x n).getLsbD i = x.getLsbD ((i + n) % 32))) ∧
  (∀ (x : Word) (n : Nat), 0 < n → n < 32 → (shr x n).toNat = x.toNat / 2 ^ n) ∧
  (∀ x : Word, (not32 x).toNat = 0xFFFFFFFF - x.toNat)

/-- R55: the digit characters, all sixteen, as the ASCII codes the spec supplies from general knowledge
(93_implementation_defined.md G2; log entry 15, PRESUMED). -/
def Obligations.HexDigitTable : Prop :=
  ∀ d : BitVec 4, [0x30#8, 0x31#8, 0x32#8, 0x33#8, 0x34#8, 0x35#8, 0x36#8, 0x37#8, 0x38#8, 0x39#8,
    0x61#8, 0x62#8, 0x63#8, 0x64#8, 0x65#8, 0x66#8][d.toNat]? = some (hexdigit d)

/-- R20, R21: the ROM words are the first 32 bits of the fractional parts of the cube roots of the first 64 primes and of
the square roots of the first eight, cut off (the reading is the spec's own, 93_implementation_defined.md G1): with `a` the
integer part of the root, `a * 2^32 + K[t]` is the root of `p * 2^96` rounded down. -/
def Obligations.RomsAreRootsOfPrimes : Prop :=
  let primes := (List.range 312).filter fun n => 1 < n && (List.range n).all fun d => d < 2 || n % d != 0
  primes.length = 64 ∧ romK.length = 64 ∧
  (∀ t, t < 64 → ∃ a, a < 7 ∧ (a * 2 ^ 32 + (romK.getD t 0#32).toNat) ^ 3 ≤ primes.getD t 0 * 2 ^ 96 ∧
    primes.getD t 0 * 2 ^ 96 < (a * 2 ^ 32 + (romK.getD t 0#32).toNat + 1) ^ 3) ∧
  (∀ i, i < 8 → ∃ a, a < 5 ∧ (a * 2 ^ 32 + (romIV.toList.getD i 0#32).toNat) ^ 2 ≤ primes.getD i 0 * 2 ^ 64 ∧
    primes.getD i 0 * 2 ^ 64 < (a * 2 ^ 32 + (romIV.toList.getD i 0#32).toNat + 1) ^ 2)

/-- R60: the fields of `STATUS` at every value of `PHASE`, and the values it takes in the nine phases. -/
def Obligations.StatusFormat : Prop :=
  (∀ p : BitVec 4, (statusOf p).extractLsb' 0 4 = p ∧ ((statusOf p).getLsbD 4 = true ↔ 0x1#4 ≤ p ∧ p ≤ 0x7#4) ∧
    ((statusOf p).getLsbD 5 = true ↔ p = 0x8#4) ∧ (statusOf p).extractLsb' 6 2 = 0#2) ∧
  (∀ p : BitVec 4, phaseLegal p = true →
    statusOf p ∈ [0x00#8, 0x11#8, 0x12#8, 0x13#8, 0x14#8, 0x15#8, 0x16#8, 0x17#8, 0x28#8])

/-- R123: the output `done` is the `DONE` flag of `STATUS` at every point, 1 exactly in `DONE`, and 0 after an effective
`START` and after `RESET`. -/
def Obligations.DoneOutputIsTheFlag : Prop :=
  (∀ s : State, s.doneOutput = s.status.getLsbD 5 ∧ (s.doneOutput = true ↔ s.phase = Phase.done)) ∧
  (∀ (s : State) (m : List Byte), messageFits s.maxMsgBytes m = true → s.phase = Phase.idle ∨ s.phase = Phase.done →
    ∃ t, exec (.start m) s = .next t ∧ t.doneOutput = false) ∧
  (∀ s : State, ∃ t, exec .reset s = .next t ∧ t.doneOutput = false)

/-! ### Preprocessor -/

/-- R71: PAD writes the padded message, byte by byte, and the block count, and nothing else but `PHASE`. `k` is the least
number that brings the length before the length field to 56 modulo 64. -/
def Obligations.PadWritesPaddedMessage : Prop :=
  ∀ s : State, ∃ t k, exec .pad s = .next t ∧
    (s.msgLen + 1 + k) % 64 = 56 ∧ (∀ k', k' < k → (s.msgLen + 1 + k') % 64 ≠ 56) ∧
    64 * t.nblk = s.msgLen + 1 + k + 8 ∧
    (∀ j, j < s.msgLen → t.pmem.read? j = some (s.msgByte j)) ∧
    t.pmem.read? s.msgLen = some 0x80#8 ∧
    (∀ j, s.msgLen < j → j < s.msgLen + 1 + k → t.pmem.read? j = some 0x00#8) ∧
    (∀ j, j < 8 → t.pmem.read? (s.msgLen + 1 + k + j) =
      some (BitVec.ofNat 8 (8 * s.msgLen % 2 ^ 64 / 2 ^ (8 * (7 - j))))) ∧
    (∀ j, 64 * t.nblk ≤ j → t.pmem.read? j = none) ∧
    t.phase = Phase.load ∧
    { t with pmem := s.pmem, nblk := s.nblk, phase := s.phase } = s

/-- R72, its four items: the length, the fields, the least `k`, and that `Pad` loses nothing below `2^64` bits. -/
def Obligations.PaddingProperties : Prop :=
  (∀ m : List Byte, ((pad m).length : Int) = m.length + 9 + (55 - m.length) % 64 ∧ (pad m).length % 64 = 0 ∧
    0 < (pad m).length) ∧
  (∀ m : List Byte, (∀ j, j < m.length → (pad m)[j]? = m[j]?) ∧ (pad m)[m.length]? = some 0x80#8 ∧
    (∀ j, m.length < j → j < (pad m).length - 8 → (pad m)[j]? = some 0x00#8) ∧
    (pad m).drop ((pad m).length - 8) = bytesBE (8 * m.length % 2 ^ 64) 8) ∧
  (∀ L k' : Nat, k' < padZeros L → (L + 1 + k') % 64 ≠ 56) ∧
  (∀ m n : List Byte, 8 * m.length < 2 ^ 64 → 8 * n.length < 2 ^ 64 → pad m = pad n → m = n)

/-- R73: the length field is cut to 64 bits and nothing else is; PAD completes at every length. -/
def Obligations.LengthFieldTruncates : Prop :=
  (∀ L : Nat, lengthField L = 8 * (L % 2 ^ 61)) ∧
  lengthField (2 ^ 61 - 1) = 0xFFFFFFFFFFFFFFF8 ∧ lengthField (2 ^ 61) = 0 ∧ lengthField (2 ^ 61 + 1) = 8 ∧
  (∀ s : State, ∃ t, exec .pad s = .next t ∧ t.nblk = (s.msgLen + 8) / 64 + 1 ∧ ∀ j, j < 8 →
    t.pmem.read? (64 * t.nblk - 8 + j) = some (BitVec.ofNat 8 (8 * (s.msgLen % 2 ^ 61) / 2 ^ (8 * (7 - j)))))

/-- R74: the block count in closed form, and the table of the boundary cases (`L`, `k`, `NBLK`, `PLEN`, `LENV`). -/
def Obligations.BlockCountClosedForm : Prop :=
  (∀ m : List Byte, (pad m).length = 64 * ((m.length + 8) / 64 + 1)) ∧
  (∀ L : Nat, blockCount L = (L + 8) / 64 + 1) ∧
  (∀ r ∈ [(0, 55, 1, 64, 0x0), (1, 54, 1, 64, 0x8), (3, 52, 1, 64, 0x18), (54, 1, 1, 64, 0x1b0), (55, 0, 1, 64, 0x1b8),
      (56, 63, 2, 128, 0x1c0), (57, 62, 2, 128, 0x1c8), (63, 56, 2, 128, 0x1f8), (64, 55, 2, 128, 0x200),
      (65, 54, 2, 128, 0x208), (118, 1, 2, 128, 0x3b0), (119, 0, 2, 128, 0x3b8), (120, 63, 3, 192, 0x3c0),
      (127, 56, 3, 192, 0x3f8), (128, 55, 3, 192, 0x400)],
    padZeros r.1 = r.2.1 ∧ blockCount r.1 = r.2.2.1 ∧ 64 * blockCount r.1 = r.2.2.2.1 ∧ lengthField r.1 = r.2.2.2.2)

/-! ### Block load and schedule -/

/-- R52: a block's words, most significant byte first; in the last block of a padded message, words 14 and 15 are the two
halves of the length field. -/
def Obligations.BlockFormat : Prop :=
  (∀ (p : List Byte) (b i : Nat), (blockWord p b i).toNat =
    (p.getD (64 * b + 4 * i) 0#8).toNat * 2 ^ 24 + (p.getD (64 * b + 4 * i + 1) 0#8).toNat * 2 ^ 16 +
    (p.getD (64 * b + 4 * i + 2) 0#8).toNat * 2 ^ 8 + (p.getD (64 * b + 4 * i + 3) 0#8).toNat) ∧
  (∀ m : List Byte, (blockWord (pad m) (blockCount m.length - 1) 14).toNat = lengthField m.length / 2 ^ 32 ∧
    (blockWord (pad m) (blockCount m.length - 1) 15).toNat = lengthField m.length % 2 ^ 32)

/-- R82: bytes and words are two views of the same bits, and `Blocks` is a bijection between byte sequences of length
`64*N` and sequences of `N` blocks. -/
def Obligations.BlocksAreABijection : Prop :=
  (∀ b0 b1 b2 b3 : Byte, wordByte (be32 b0 b1 b2 b3) 0 = b0 ∧ wordByte (be32 b0 b1 b2 b3) 1 = b1 ∧
    wordByte (be32 b0 b1 b2 b3) 2 = b2 ∧ wordByte (be32 b0 b1 b2 b3) 3 = b3) ∧
  (∀ w : Word, bytesBE w.toNat 4 = [wordByte w 0, wordByte w 1, wordByte w 2, wordByte w 3] ∧
    be32 (wordByte w 0) (wordByte w 1) (wordByte w 2) (wordByte w 3) = w) ∧
  (∀ (N : Nat) (p q : List Byte), p.length = 64 * N → q.length = 64 * N →
    (∀ b, b < N → block p b = block q b) → p = q) ∧
  (∀ (N : Nat) (f : Nat → Nat → Word), ∃ p : List Byte, p.length = 64 * N ∧
    ∀ b i, b < N → i < 16 → (block p b)[i]? = some (f b i))

/-- R81: LOAD reads block `BLK` into `W[0..15]`, most significant byte first, sets `T` to 16, and writes nothing else but
`PHASE`. -/
def Obligations.LoadReadsBlock : Prop :=
  ∀ s : State, ∃ t, exec .load s = .next t ∧
    (∀ (i : Nat) (_ : i < 16), (t.w[i]).toNat = (s.pmemByte (64 * s.blk + 4 * i)).toNat * 2 ^ 24 +
      (s.pmemByte (64 * s.blk + 4 * i + 1)).toNat * 2 ^ 16 + (s.pmemByte (64 * s.blk + 4 * i + 2)).toNat * 2 ^ 8 +
      (s.pmemByte (64 * s.blk + 4 * i + 3)).toNat) ∧
    (∀ (i : Nat) (_ : i < 64), 16 ≤ i → t.w[i] = s.w[i]) ∧
    t.t = 16#7 ∧ t.phase = Phase.expand ∧
    { t with w := s.w, t := s.t, phase := s.phase } = s ∧
    (∀ p : List Byte, s.pmem = Memory.ofBytes p → p.length = 64 * s.nblk → s.blk < s.nblk →
      ∀ i, i < 16 → t.w[i]? = (block p s.blk)[i]?)

/-- R83: the schedule's mixing functions: two rotations and a zero-fill shift, linear over xor. -/
def Obligations.ScheduleMixingFunctions : Prop :=
  (∀ x : Word, smallSigma0 x = x.rotateRight 7 ^^^ x.rotateRight 18 ^^^ x >>> 3 ∧
    smallSigma1 x = x.rotateRight 17 ^^^ x.rotateRight 19 ^^^ x >>> 10) ∧
  (∀ x y : Word, smallSigma0 (x ^^^ y) = smallSigma0 x ^^^ smallSigma0 y ∧
    smallSigma1 (x ^^^ y) = smallSigma1 x ^^^ smallSigma1 y) ∧
  smallSigma0 0#32 = 0#32 ∧ smallSigma1 0#32 = 0#32

/-- R86: EXPAND computes `W[T]` from its four taps, `T` in `[16,64)`, and writes nothing else but `T` and `PHASE`. -/
def Obligations.ExpandComputesWord : Prop :=
  ∀ (s : State) (_ : 16 ≤ s.t.toNat) (_ : s.t.toNat ≤ 63), ∃ t, exec .expand s = .next t ∧
    (∀ (i : Nat) (_ : i < 64), t.w[i] = if i = s.t.toNat then
        smallSigma1 (s.w[s.t.toNat - 2]) + s.w[s.t.toNat - 7] + smallSigma0 (s.w[s.t.toNat - 15]) + s.w[s.t.toNat - 16]
      else s.w[i]) ∧
    t.t.toNat = s.t.toNat + 1 ∧ t.phase = (if s.t.toNat = 63 then Phase.initv else Phase.expand) ∧
    { t with w := s.w, t := s.t, phase := s.phase } = s

/-- R87: LOAD and the 48 EXPAND steps of a block give its whole schedule, whatever `W` held before, and change nothing
but `W`, `T` and `PHASE`. -/
def Obligations.BlockScheduleIsExpanded : Prop :=
  ∀ (s : State) (p : List Byte), s.script = [] → s.phase = Phase.load → s.pmem = Memory.ofBytes p →
    p.length = 64 * s.nblk → s.blk < s.nblk →
    ∃ t, runSteps 49 s = .next t ∧ t.w.toList = expandBlock (block p s.blk) ∧ t.t = 64#7 ∧ t.phase = Phase.initv ∧
      { t with w := s.w, t := s.t, phase := s.phase } = s

/-! ### Compression -/

/-- R90: the round functions: rotations, select and majority, bit by bit. -/
def Obligations.RoundMixingFunctions : Prop :=
  (∀ x : Word, bigSigma0 x = x.rotateRight 2 ^^^ x.rotateRight 13 ^^^ x.rotateRight 22 ∧
    bigSigma1 x = x.rotateRight 6 ^^^ x.rotateRight 11 ^^^ x.rotateRight 25) ∧
  (∀ (e f g : Word) (i : Nat), (ch e f g).getLsbD i = if e.getLsbD i then f.getLsbD i else g.getLsbD i) ∧
  (∀ e f g : Word, ch e f g = (e &&& f) ||| (~~~e &&& g)) ∧
  (∀ (a b c : Word) (i : Nat), (maj a b c).getLsbD i = true ↔
    2 ≤ (a.getLsbD i).toNat + (b.getLsbD i).toNat + (c.getLsbD i).toNat)

/-- R92: INITV loads `a..h` from `H[0..7]`, sets `T` to 0, and writes nothing else but `PHASE`. -/
def Obligations.InitvLoadsWorkingVariables : Prop :=
  ∀ s : State, ∃ t, exec .initv s = .next t ∧
    t.vars.a = s.h[0] ∧ t.vars.b = s.h[1] ∧ t.vars.c = s.h[2] ∧ t.vars.d = s.h[3] ∧
    t.vars.e = s.h[4] ∧ t.vars.f = s.h[5] ∧ t.vars.g = s.h[6] ∧ t.vars.h = s.h[7] ∧
    t.t = 0#7 ∧ t.phase = Phase.round ∧
    { t with vars := s.vars, t := s.t, phase := s.phase } = s

/-- R93: ROUND, `T` in `[0,64)`: the eight new working variables from the old ones, `K[T]` and `W[T]`; nothing else is
written but `T` and `PHASE`. -/
def Obligations.RoundMixesWorkingVariables : Prop :=
  ∀ (s : State) (_ : s.t.toNat ≤ 63), ∃ t temp1 temp2, exec .round s = .next t ∧
    temp1 = s.vars.h + bigSigma1 s.vars.e + ch s.vars.e s.vars.f s.vars.g + romK.getD s.t.toNat 0#32 + s.w[s.t.toNat] ∧
    temp2 = bigSigma0 s.vars.a + maj s.vars.a s.vars.b s.vars.c ∧
    t.vars.a = temp1 + temp2 ∧ t.vars.b = s.vars.a ∧ t.vars.c = s.vars.b ∧ t.vars.d = s.vars.c ∧
    t.vars.e = s.vars.d + temp1 ∧ t.vars.f = s.vars.e ∧ t.vars.g = s.vars.f ∧ t.vars.h = s.vars.g ∧
    t.t.toNat = s.t.toNat + 1 ∧ t.phase = (if s.t.toNat = 63 then Phase.accum else Phase.round) ∧
    { t with vars := s.vars, t := s.t, phase := s.phase } = s

/-- R94: ACCUM adds `a..h` into `H[0..7]`, each modulo `2^32`, moves to the next block or to FORMAT, and writes nothing
else. -/
def Obligations.AccumAddsIntoHashState : Prop :=
  ∀ s : State, ∃ t, exec .accum s = .next t ∧
    (∀ (i : Nat) (_ : i < 8), (t.h[i]).toNat = ((s.h[i]).toNat +
      ([s.vars.a, s.vars.b, s.vars.c, s.vars.d, s.vars.e, s.vars.f, s.vars.g, s.vars.h].getD i 0#32).toNat) % 2 ^ 32) ∧
    t.blk = s.blk + 1 ∧ t.phase = (if s.blk + 1 = s.nblk then Phase.format else Phase.load) ∧
    { t with h := s.h, blk := s.blk, phase := s.phase } = s

/-- R98: INITV, 64 ROUND steps and ACCUM compress one block into the hash state; so a chaining value goes to the next one.
Nothing else is written but `a..h`, `T`, `BLK` and `PHASE`. -/
def Obligations.BlockIsCompressed : Prop :=
  ∀ s : State, s.script = [] → s.phase = Phase.initv →
    ∃ t, runSteps 66 s = .next t ∧ t.h = compress s.h s.w.toList ∧ t.blk = s.blk + 1 ∧
      t.phase = (if s.blk + 1 = s.nblk then Phase.format else Phase.load) ∧
      (∀ p : List Byte, s.h = chain p s.blk → s.w.toList = expandBlock (block p s.blk) → t.h = chain p (s.blk + 1)) ∧
      { t with h := s.h, vars := s.vars, t := s.t, blk := s.blk, phase := s.phase } = s

/-- R95: the hash state has two writers within a message, START and ACCUM; no other step changes it but `RESET`. -/
def Obligations.HashStateWriters : Prop :=
  ∀ s t : State, step s = .next t → t.h = s.h ∨ s.restarts = true ∨
    (s.phase = Phase.accum ∧ t.h = addVars s.h s.vars ∧ t.blk = s.blk + 1)

/-! ### Formatter -/

/-- R101: FORMAT serialises `H` into `DIGEST`, renders it into `HEX`, shows `DONE`, and writes nothing else. -/
def Obligations.FormatSerialisesHashState : Prop :=
  ∀ s : State, ∃ t, exec .format s = .next t ∧
    (∀ (i j : Nat) (_ : i < 8) (_ : j < 4),
      (t.digest[4 * i + j]).toNat = (s.h[i]).toNat / 2 ^ (8 * (3 - j)) % 256) ∧
    (∀ (n : Nat) (_ : n < 32), t.hex[2 * n] = hexdigit ((t.digest[n]).extractLsb' 4 4) ∧
      t.hex[2 * n + 1] = hexdigit ((t.digest[n]).extractLsb' 0 4)) ∧
    t.phase = Phase.done ∧ t.status = 0x28#8 ∧
    { t with digest := s.digest, hex := s.hex, phase := s.phase } = s

/-- R54: two digits a byte, high nibble first; character `m` straight from the hash state. -/
def Obligations.HexFormat : Prop :=
  (∀ (d : Vector Byte 32) (n : Nat) (_ : n < 32), (hexOf d)[2 * n] = hexdigit ((d[n]).extractLsb' 4 4) ∧
    (hexOf d)[2 * n + 1] = hexdigit ((d[n]).extractLsb' 0 4)) ∧
  (∀ (h : Vector Word 8) (m : Nat) (_ : m < 64),
    (hexOf (digestOf h))[m] = hexdigit ((h[m / 8]).extractLsb' (28 - 4 * (m % 8)) 4))

/-- R102: 64 characters, each a lowercase hexadecimal digit, and the string determines the hash state. The characters are
taken as their ASCII codes (93_implementation_defined.md G2; log entry 15, PRESUMED). -/
def Obligations.FormatProperties : Prop :=
  (∀ h : Vector Word 8, (hexOf (digestOf h)).toList.length = 64) ∧
  (∀ (h : Vector Word 8) (m : Nat) (_ : m < 64),
    (0x30#8 ≤ (hexOf (digestOf h))[m] ∧ (hexOf (digestOf h))[m] ≤ 0x39#8) ∨
    (0x61#8 ≤ (hexOf (digestOf h))[m] ∧ (hexOf (digestOf h))[m] ≤ 0x66#8)) ∧
  (∀ h h' : Vector Word 8, hexOf (digestOf h) = hexOf (digestOf h') → h = h')

/-! ### Host commands and reads -/

/-- R105: in `IDLE` and `DONE`, START takes a message within `MAX_MSG_BYTES` over, puts `IV` into `H`, zeroes `BLK` and
goes to `PAD`; what `DIGEST` and `HEX` become is unspecified and nothing is said of it; everything else is unchanged. In
every other phase nothing changes. A message over the bound is refused, in every phase. The numerals of `IV` are log entry
15 (PRESUMED, 93_implementation_defined.md G1), the draw counter is the model's (log entry 2), and so is that the bound
stands in State (log entry 5). -/
def Obligations.StartBeginsMessage : Prop :=
  (∀ (m : List Byte) (s : State), messageFits s.maxMsgBytes m = true → s.phase = Phase.idle ∨ s.phase = Phase.done →
    ∃ t, exec (.start m) s = .next t ∧
    (∀ j, t.msg.read? j = m[j]?) ∧ t.msgLen = m.length ∧
    t.h = #v[0x6a09e667#32, 0xbb67ae85#32, 0x3c6ef372#32, 0xa54ff53a#32,
      0x510e527f#32, 0x9b05688c#32, 0x1f83d9ab#32, 0x5be0cd19#32] ∧
    t.blk = 0 ∧ t.phase = Phase.pad ∧ t.status = 0x11#8 ∧
    { t with msg := s.msg, msgLen := s.msgLen, h := s.h, blk := s.blk, digest := s.digest, hex := s.hex, phase := s.phase, draws := s.draws } = s) ∧
  (∀ (m : List Byte) (s : State), messageFits s.maxMsgBytes m = true → s.phase ≠ Phase.idle → s.phase ≠ Phase.done →
    exec (.start m) s = .next s) ∧
  (∀ (m : List Byte) (s : State), messageFits s.maxMsgBytes m = true ↔ ∀ bound, s.maxMsgBytes = some bound → m.length ≤ bound) ∧
  (∀ (bound : Nat) (m : List Byte) (s : State), s.maxMsgBytes = some bound → bound < m.length →
    exec (.start m) s = .refused (.messageTooLong m.length))

/-- R9, R10, R105: `MAX_MSG_BYTES` is a parameter: no step changes it. And the length of the message the core holds stays
within it, from any state where it does or where the core is in `IDLE` (what `RESET` leaves in `MSGLEN` is unspecified). -/
def Obligations.BoundIsFixedAndKept : Prop :=
  (∀ s t : State, step s = .next t → t.maxMsgBytes = s.maxMsgBytes) ∧
  (∀ s t : State, s.phase = Phase.idle ∨ s.lengthFits → step s = .next t → t.phase = Phase.idle ∨ t.lengthFits)

/-- R106: RESET goes to `IDLE` from every state, reserved phases included, by the command and by the reset input; `STATUS`
is then 0. What the core's other elements become is unspecified and nothing is said of it. That the host's script and
replies are kept is the model's (log entry 16, DEDUCED), and so is that the reset input wins over every command presented
with it (log entry 7, DEDUCED). -/
def Obligations.ResetGoesToIdle : Prop :=
  (∀ s : State, ∃ t, exec .reset s = .next t ∧ t.phase = Phase.idle ∧ t.status = 0x00#8 ∧
    t.script = s.script ∧ t.replies = s.replies) ∧
  (∀ (s : State) (e : HostEvent) (rest : List ScriptLine),
    s.script = .event e :: rest → (∃ m, e = .command 0b10 m) ∨ (∃ p, e = .resetInput p) →
    ∃ t, step s = .next t ∧ t.phase = Phase.idle)

/-- The model's own, not the spec's, which says "unspecified" and would let a core keep old contents (R25, R106): the
free values RESET draws depend on the draw counter alone (log entry 2, DESIGN CHOICE), so two resets on one platform at the
same count leave the same core, whatever it held. -/
def Obligations.ResetKeepsNothing : Prop :=
  ∀ s s' : State, s.maxMsgBytes = s'.maxMsgBytes → s.draws = s'.draws →
    ∃ t t', exec .reset s = .next t ∧ exec .reset s' = .next t' ∧ t.sameCore t'

/-- R107: NOP and the reserved code change nothing, in any phase. -/
def Obligations.NopAndReservedCodeChangeNothing : Prop :=
  ∀ s : State, exec .nop s = .next s ∧ exec .rsvd s = .next s

/-- R108: RDSTATUS hands the host `STATUS` for the current phase, in every phase, and changes nothing of the core (the list
of replies is the model's record, log entry 6). -/
def Obligations.ReadStatusReturnsStatus : Prop :=
  ∀ s : State, exec .rdstatus s = .next { s with replies := s.replies ++ [.status (statusOf s.phase)] }

/-- R109: RDDIGEST returns the stored bytes in `DONE` and some 32 bytes in every other phase, and changes nothing of the
core either way (the draw counter and the list of replies are the model's, log entries 2 and 6). -/
def Obligations.ReadDigestReturnsDigest : Prop :=
  ∀ s : State, ∃ t d, exec .rddigest s = .next t ∧ t.replies = s.replies ++ [.digest d] ∧
    (s.phase = Phase.done → d = s.digest ∧ t.draws = s.draws) ∧
    { t with replies := s.replies, draws := s.draws } = s

/-- R110: RDHEX returns the stored characters in `DONE` and some 64 bytes in every other phase, and changes nothing of the
core either way (the draw counter and the list of replies are the model's, log entries 2 and 6). -/
def Obligations.ReadHexReturnsHex : Prop :=
  ∀ s : State, ∃ t x, exec .rdhex s = .next t ∧ t.replies = s.replies ++ [.hex x] ∧
    (s.phase = Phase.done → x = s.hex ∧ t.draws = s.draws) ∧
    { t with replies := s.replies, draws := s.draws } = s

/-- R64: HASH stands for `START m`, `WAIT DONE`, `RDHEX`, before the rest of the host's script, and changes nothing else
(that the line is replaced in a step of its own is log entry 6). -/
def Obligations.HashExpandsIntoItsScript : Prop :=
  ∀ (m : List Byte) (s : State), exec (.hash m) s =
    .next { s with script := .event (.command 0b01 m) :: .waitDone :: .event (.read .hex) :: s.script }

/-- R142, R146, R122: while the core is busy, no event of the host but RESET changes anything of the core; every such event
the platform can offer completes. -/
def Obligations.BusyCoreIgnoresHost : Prop :=
  ∀ (s : State) (e : HostEvent), s.busy = true → decodeHost e ≠ .reset →
    (∀ m, decodeHost e = .start m → messageFits s.maxMsgBytes m = true) →
    ∃ t, exec (decodeHost e) s = .next t ∧ t.sameCore s

/-- R135, R123: only RESET takes a busy core out of its run; otherwise it stays busy until FORMAT shows `DONE`. -/
def Obligations.OnlyResetInterruptsARun : Prop :=
  ∀ s t : State, s.busy = true → step s = .next t →
    t.busy = true ∨ (s.phase = Phase.format ∧ t.phase = Phase.done) ∨
    (t.phase = Phase.idle ∧ ∃ e rest, s.script = .event e :: rest ∧ decodeHost e = .reset)

/-- R18, R19: `DIGEST` and `HEX` are written only by FORMAT; but for an effective START and RESET no other step changes
them, and a core in `DONE` stays there. -/
def Obligations.OutputIsWrittenOnlyByFormat : Prop :=
  ∀ s t : State, step s = .next t → s.restarts = false →
    (s.phase ≠ Phase.format → t.digest = s.digest ∧ t.hex = s.hex) ∧ (s.phase = Phase.done → t.phase = Phase.done)

/-- R10, R142: `MSG` and `MSGLEN` have one writer, an effective START; but for RESET no other step changes them. -/
def Obligations.MessageIsImmutable : Prop :=
  ∀ s t : State, step s = .next t → s.restarts = false → t.msg = s.msg ∧ t.msgLen = s.msgLen

/-! ### Reset, invariants, whole runs -/

/-- R25, R136, for what the spec gives a value, on every platform: after reset `PHASE` is `IDLE`, `STATUS` is 0 and `done`
is low. The empty script and replies and the draw counter are the model's own (log entries 2 and 6); the parameter is the
platform's, by default unbounded (R5, log entry 5). -/
def Obligations.ResetStateIsIdle : Prop :=
  (∀ bound, (State.resetFor bound).phase = 0x0#4 ∧ (State.resetFor bound).status = 0x00#8 ∧
    (State.resetFor bound).doneOutput = false ∧ (State.resetFor bound).busy = false ∧
    (State.resetFor bound).maxMsgBytes = bound ∧ (State.resetFor bound).script = [] ∧
    (State.resetFor bound).replies = [] ∧ (State.resetFor bound).draws = 0) ∧
  State.reset = State.resetFor none

/-- The state after reset meets the invariants, on every platform. That the byte stores are then in canonical form speaks of
the model's form (log entry 3) of the empty stores the model chose (log entry 1, DESIGN CHOICE). -/
def Obligations.InvariantsHoldAtReset : Prop :=
  ∀ bound, RangeInvariant (State.resetFor bound) ∧ DigestInvariant (State.resetFor bound) ∧
    (State.resetFor bound).msg.wf ∧ (State.resetFor bound).pmem.wf

/-- The byte stores keep their canonical form (log entry 3). -/
def Obligations.StoresStayCanonical : Prop :=
  ∀ s t : State, s.msg.wf → s.pmem.wf → step s = .next t → t.msg.wf ∧ t.pmem.wf

/-- R27: every step, of the host or of the core, keeps the range invariants; so they hold in every state reached after a
`RESET`. -/
def Obligations.RangeInvariantIsKept : Prop :=
  (∀ s t : State, RangeInvariant s → step s = .next t → RangeInvariant t) ∧
  (∀ (s s' t : State) (n : Nat), exec .reset s = .next s' → runSteps n s' = .next t → RangeInvariant t)

/-- R28, R33: under the range invariants no operation of the core reads an element that holds no value: every byte, word
and constant it reads is there. So the free values of log entry 4 are never drawn in a run from `RESET`. -/
def Obligations.NoAbsentElementIsRead : Prop :=
  ∀ s : State, RangeInvariant s →
    (s.phase = Phase.pad → ∀ j, j < s.msgLen → s.msg.read? j = some (s.msgByte j)) ∧
    (s.phase = Phase.load → ∀ j, j < 64 → s.pmem.read? (64 * s.blk + j) = some (s.pmemByte (64 * s.blk + j))) ∧
    (s.phase = Phase.expand → ∀ d ∈ [2, 7, 15, 16], d ≤ s.t.toNat ∧ s.w[s.t.toNat - d]? = some (s.schedule d)) ∧
    (s.phase = Phase.round → s.w[s.t.toNat]? = some (s.schedule 0) ∧ romK[s.t.toNat]? = some s.roundConst)

/-- R87, R98, R111: every step keeps the correspondence between the core's registers and the spec's functions, so that a
digest on show is the digest of the message the core holds. -/
def Obligations.DigestInvariantIsKept : Prop :=
  ∀ s t : State, DigestInvariant s → step s = .next t → DigestInvariant t

/-- R111 items 1 and 2: after an effective START and no further move of the host, the core is busy for exactly
`2 + 115 * NBLK` steps and then shows the digest of the message. -/
def Obligations.RunComputesSha256 : Prop :=
  ∀ (m : List Byte) (s : State), messageFits s.maxMsgBytes m = true → s.phase = Phase.idle ∨ s.phase = Phase.done →
    s.script = [] → ∃ t u, exec (.start m) s = .next t ∧ runSteps (2 + 115 * ((m.length + 8) / 64 + 1)) t = .next u ∧
      u.phase = Phase.done ∧ u.hex = sha256hex m ∧ u.digest = digestOf (finalHash m) ∧
      (∀ k, k < 2 + 115 * ((m.length + 8) / 64 + 1) → ∃ v, runSteps k t = .next v ∧ v.busy = true)

/-- R111 item 3, first half: nothing the core held before an effective START shows: at every point of two runs on the same
message `STATUS` is the same, and so are the digests once shown. -/
def Obligations.ResultIndependentOfEarlierState : Prop :=
  ∀ (m : List Byte) (s s' t t' u u' : State) (k : Nat),
    s.quiet = true → s'.quiet = true → s.script = [] → s'.script = [] →
    exec (.start m) s = .next t → exec (.start m) s' = .next t' →
    runSteps k t = .next u → runSteps k t' = .next u' →
    u.status = u'.status ∧ (u.phase = Phase.done → u.digest = u'.digest ∧ u.hex = u'.hex)

/-- R111 item 3, second half: however NOPs, reads and ineffective STARTs are interleaved with the core's steps, a run that
is not restarted goes on computing the digest of its message and shows no other. -/
def Obligations.InterleavingDoesNotChangeResult : Prop :=
  ∀ (n : Nat) (m : List Byte) (s t : State), Tracks s m →
    (∀ k u, k < n → runSteps k s = .next u → u.restarts = false) → runSteps n s = .next t →
    Tracks t m ∧ (t.phase = Phase.done → t.hex = sha256hex m ∧ t.digest = digestOf (finalHash m))

/-- R111 item 1 with the host at work: however the host's other moves fall between, a run that is not restarted takes
`2 + 115 * NBLK` steps of the core; until then the core is busy, and from then on `DONE` shows. -/
def Obligations.RunTakesExactlyItsSteps : Prop :=
  ∀ (n : Nat) (m : List Byte) (s t : State), Tracks s m → s.phase = Phase.pad →
    (∀ k u, k < n → runSteps k s = .next u → u.restarts = false) → runSteps n s = .next t →
    (t.busy = true ↔ coreStepsIn n s < 2 + 115 * ((m.length + 8) / 64 + 1)) ∧
    (t.phase = Phase.done ↔ coreStepsIn n s = 2 + 115 * ((m.length + 8) / 64 + 1))

/-- R64, R111: `HASH m` on a quiescent core hands the host `SHA256hex(m)`: one step for the line itself, one for START,
`2 + 115 * NBLK` of the core, one to go on from the wait, one for the read (the steps that are not the core's are the
model's, log entry 6). -/
def Obligations.HashReturnsSha256 : Prop :=
  ∀ (m : List Byte) (s : State) (rest : List ScriptLine), messageFits s.maxMsgBytes m = true →
    s.phase = Phase.idle ∨ s.phase = Phase.done → s.script = .event (.hash m) :: rest →
    ∃ t, runSteps (2 + (2 + 115 * ((m.length + 8) / 64 + 1)) + 2) s = .next t ∧
      t.replies = s.replies ++ [.hex (sha256hex m)] ∧ t.script = rest ∧ t.phase = Phase.done
end

