-- ==== Sys2Proof/Laws/State.lean ====
section
/-! SUPPORT. One lemma per field per update of the state, so that no proof unfolds a record update. -/

namespace Sys2Proof.Machine

/-! ### `withScript` -/

@[simp] theorem State.withScript_maxMsgBytes (s : State) (l : List ScriptLine) : (s.withScript l).maxMsgBytes = s.maxMsgBytes := rfl
@[simp] theorem State.withScript_msg (s : State) (l : List ScriptLine) : (s.withScript l).msg = s.msg := rfl
@[simp] theorem State.withScript_msgLen (s : State) (l : List ScriptLine) : (s.withScript l).msgLen = s.msgLen := rfl
@[simp] theorem State.withScript_pmem (s : State) (l : List ScriptLine) : (s.withScript l).pmem = s.pmem := rfl
@[simp] theorem State.withScript_nblk (s : State) (l : List ScriptLine) : (s.withScript l).nblk = s.nblk := rfl
@[simp] theorem State.withScript_blk (s : State) (l : List ScriptLine) : (s.withScript l).blk = s.blk := rfl
@[simp] theorem State.withScript_t (s : State) (l : List ScriptLine) : (s.withScript l).t = s.t := rfl
@[simp] theorem State.withScript_w (s : State) (l : List ScriptLine) : (s.withScript l).w = s.w := rfl
@[simp] theorem State.withScript_vars (s : State) (l : List ScriptLine) : (s.withScript l).vars = s.vars := rfl
@[simp] theorem State.withScript_phase (s : State) (l : List ScriptLine) : (s.withScript l).phase = s.phase := rfl
@[simp] theorem State.withScript_h (s : State) (l : List ScriptLine) : (s.withScript l).h = s.h := rfl
@[simp] theorem State.withScript_digest (s : State) (l : List ScriptLine) : (s.withScript l).digest = s.digest := rfl
@[simp] theorem State.withScript_hex (s : State) (l : List ScriptLine) : (s.withScript l).hex = s.hex := rfl
@[simp] theorem State.withScript_script (s : State) (l : List ScriptLine) : (s.withScript l).script = l := rfl
@[simp] theorem State.withScript_replies (s : State) (l : List ScriptLine) : (s.withScript l).replies = s.replies := rfl
@[simp] theorem State.withScript_draws (s : State) (l : List ScriptLine) : (s.withScript l).draws = s.draws := rfl

/-! ### `reply` -/

@[simp] theorem State.reply_maxMsgBytes (s : State) (r : Reply) : (s.reply r).maxMsgBytes = s.maxMsgBytes := rfl
@[simp] theorem State.reply_msg (s : State) (r : Reply) : (s.reply r).msg = s.msg := rfl
@[simp] theorem State.reply_msgLen (s : State) (r : Reply) : (s.reply r).msgLen = s.msgLen := rfl
@[simp] theorem State.reply_pmem (s : State) (r : Reply) : (s.reply r).pmem = s.pmem := rfl
@[simp] theorem State.reply_nblk (s : State) (r : Reply) : (s.reply r).nblk = s.nblk := rfl
@[simp] theorem State.reply_blk (s : State) (r : Reply) : (s.reply r).blk = s.blk := rfl
@[simp] theorem State.reply_t (s : State) (r : Reply) : (s.reply r).t = s.t := rfl
@[simp] theorem State.reply_w (s : State) (r : Reply) : (s.reply r).w = s.w := rfl
@[simp] theorem State.reply_vars (s : State) (r : Reply) : (s.reply r).vars = s.vars := rfl
@[simp] theorem State.reply_phase (s : State) (r : Reply) : (s.reply r).phase = s.phase := rfl
@[simp] theorem State.reply_h (s : State) (r : Reply) : (s.reply r).h = s.h := rfl
@[simp] theorem State.reply_digest (s : State) (r : Reply) : (s.reply r).digest = s.digest := rfl
@[simp] theorem State.reply_hex (s : State) (r : Reply) : (s.reply r).hex = s.hex := rfl
@[simp] theorem State.reply_script (s : State) (r : Reply) : (s.reply r).script = s.script := rfl
@[simp] theorem State.reply_replies (s : State) (r : Reply) : (s.reply r).replies = s.replies ++ [r] := rfl
@[simp] theorem State.reply_draws (s : State) (r : Reply) : (s.reply r).draws = s.draws := rfl

/-! ### `countDraw` -/

@[simp] theorem State.countDraw_maxMsgBytes (s : State) : (s.countDraw).maxMsgBytes = s.maxMsgBytes := rfl
@[simp] theorem State.countDraw_msg (s : State) : (s.countDraw).msg = s.msg := rfl
@[simp] theorem State.countDraw_msgLen (s : State) : (s.countDraw).msgLen = s.msgLen := rfl
@[simp] theorem State.countDraw_pmem (s : State) : (s.countDraw).pmem = s.pmem := rfl
@[simp] theorem State.countDraw_nblk (s : State) : (s.countDraw).nblk = s.nblk := rfl
@[simp] theorem State.countDraw_blk (s : State) : (s.countDraw).blk = s.blk := rfl
@[simp] theorem State.countDraw_t (s : State) : (s.countDraw).t = s.t := rfl
@[simp] theorem State.countDraw_w (s : State) : (s.countDraw).w = s.w := rfl
@[simp] theorem State.countDraw_vars (s : State) : (s.countDraw).vars = s.vars := rfl
@[simp] theorem State.countDraw_phase (s : State) : (s.countDraw).phase = s.phase := rfl
@[simp] theorem State.countDraw_h (s : State) : (s.countDraw).h = s.h := rfl
@[simp] theorem State.countDraw_digest (s : State) : (s.countDraw).digest = s.digest := rfl
@[simp] theorem State.countDraw_hex (s : State) : (s.countDraw).hex = s.hex := rfl
@[simp] theorem State.countDraw_script (s : State) : (s.countDraw).script = s.script := rfl
@[simp] theorem State.countDraw_replies (s : State) : (s.countDraw).replies = s.replies := rfl
@[simp] theorem State.countDraw_draws (s : State) : (s.countDraw).draws = s.draws + 1 := rfl

/-! ### `beginMessage` -/

@[simp] theorem State.beginMessage_maxMsgBytes (s : State) (m : List Byte) : (s.beginMessage m).maxMsgBytes = s.maxMsgBytes := rfl
@[simp] theorem State.beginMessage_msg (s : State) (m : List Byte) : (s.beginMessage m).msg = Memory.ofBytes m := rfl
@[simp] theorem State.beginMessage_msgLen (s : State) (m : List Byte) : (s.beginMessage m).msgLen = m.length := rfl
@[simp] theorem State.beginMessage_pmem (s : State) (m : List Byte) : (s.beginMessage m).pmem = s.pmem := rfl
@[simp] theorem State.beginMessage_nblk (s : State) (m : List Byte) : (s.beginMessage m).nblk = s.nblk := rfl
@[simp] theorem State.beginMessage_blk (s : State) (m : List Byte) : (s.beginMessage m).blk = 0 := rfl
@[simp] theorem State.beginMessage_t (s : State) (m : List Byte) : (s.beginMessage m).t = s.t := rfl
@[simp] theorem State.beginMessage_w (s : State) (m : List Byte) : (s.beginMessage m).w = s.w := rfl
@[simp] theorem State.beginMessage_vars (s : State) (m : List Byte) : (s.beginMessage m).vars = s.vars := rfl
@[simp] theorem State.beginMessage_phase (s : State) (m : List Byte) : (s.beginMessage m).phase = Phase.pad := rfl
@[simp] theorem State.beginMessage_h (s : State) (m : List Byte) : (s.beginMessage m).h = romIV := rfl
@[simp] theorem State.beginMessage_digest (s : State) (m : List Byte) : (s.beginMessage m).digest = Config.freeDigest s.draws := rfl
@[simp] theorem State.beginMessage_hex (s : State) (m : List Byte) : (s.beginMessage m).hex = Config.freeHex s.draws := rfl
@[simp] theorem State.beginMessage_script (s : State) (m : List Byte) : (s.beginMessage m).script = s.script := rfl
@[simp] theorem State.beginMessage_replies (s : State) (m : List Byte) : (s.beginMessage m).replies = s.replies := rfl
@[simp] theorem State.beginMessage_draws (s : State) (m : List Byte) : (s.beginMessage m).draws = s.draws + 1 := rfl

/-! ### `resetTo` -/

@[simp] theorem State.resetTo_maxMsgBytes (s : State) : (s.resetTo).maxMsgBytes = s.maxMsgBytes := rfl
@[simp] theorem State.resetTo_msg (s : State) : (s.resetTo).msg = Memory.ofBytes (Config.freeMsg s.draws) := rfl
@[simp] theorem State.resetTo_msgLen (s : State) : (s.resetTo).msgLen = Config.freeMsgLen s.draws := rfl
@[simp] theorem State.resetTo_pmem (s : State) : (s.resetTo).pmem = Memory.ofBytes (Config.freePmem s.draws) := rfl
@[simp] theorem State.resetTo_nblk (s : State) : (s.resetTo).nblk = Config.freeNblk s.draws := rfl
@[simp] theorem State.resetTo_blk (s : State) : (s.resetTo).blk = Config.freeBlk s.draws := rfl
@[simp] theorem State.resetTo_t (s : State) : (s.resetTo).t = Config.freeT s.draws := rfl
@[simp] theorem State.resetTo_w (s : State) : (s.resetTo).w = Config.freeW s.draws := rfl
@[simp] theorem State.resetTo_vars (s : State) : (s.resetTo).vars = varsOf (Config.freeVars s.draws) := rfl
@[simp] theorem State.resetTo_phase (s : State) : (s.resetTo).phase = Phase.idle := rfl
@[simp] theorem State.resetTo_h (s : State) : (s.resetTo).h = Config.freeH s.draws := rfl
@[simp] theorem State.resetTo_digest (s : State) : (s.resetTo).digest = Config.freeDigest s.draws := rfl
@[simp] theorem State.resetTo_hex (s : State) : (s.resetTo).hex = Config.freeHex s.draws := rfl
@[simp] theorem State.resetTo_script (s : State) : (s.resetTo).script = s.script := rfl
@[simp] theorem State.resetTo_replies (s : State) : (s.resetTo).replies = s.replies := rfl
@[simp] theorem State.resetTo_draws (s : State) : (s.resetTo).draws = s.draws + 1 := rfl

end Sys2Proof.Machine
end

