-- ==== Sys2Proof/Laws/Memory.lean ====
section
/-! SUPPORT. The byte stores: reading what was stored, the canonical form, and the sequences the operations read. -/

namespace Sys2Proof.Machine

theorem Memory.read?_ofBytesFrom (bs : List Byte) (start a : Nat) :
    (Memory.ofBytesFrom start bs).read? a = if start ≤ a then bs[a - start]? else none := by
  induction bs generalizing start with
  | nil => simp [Memory.ofBytesFrom, Memory.read?]
  | cons b bs ih =>
    simp only [Memory.ofBytesFrom, Memory.read?, ih]
    rcases Nat.lt_trichotomy start a with h | h | h
    · rw [if_neg (by omega), if_pos (by omega), if_pos (by omega), show a - start = (a - (start + 1)) + 1 by omega]
      simp
    · subst h; simp
    · rw [if_neg (by omega), if_neg (by omega), if_neg (by omega)]

/-- Reading the store of a byte sequence gives the sequence. -/
@[simp] theorem Memory.read?_ofBytes (bs : List Byte) (a : Nat) : (Memory.ofBytes bs).read? a = bs[a]? := by
  simp [Memory.ofBytes, Memory.read?_ofBytesFrom]

theorem Memory.length_ofBytesFrom (bs : List Byte) (start : Nat) :
    (Memory.ofBytesFrom start bs).length = bs.length := by
  induction bs generalizing start with
  | nil => rfl
  | cons b bs ih => simp [Memory.ofBytesFrom, ih]

/-- The store of a byte sequence lists as many bytes as the sequence has. -/
@[simp] theorem Memory.length_ofBytes (bs : List Byte) : (Memory.ofBytes bs).length = bs.length :=
  Memory.length_ofBytesFrom bs 0

theorem Memory.start_le_of_mem_ofBytesFrom {bs : List Byte} {start : Nat} {c : Host.Cell}
    (h : c ∈ Memory.ofBytesFrom start bs) : start ≤ c.1 := by
  induction bs generalizing start with
  | nil => simp [Memory.ofBytesFrom] at h
  | cons b bs ih =>
    rcases List.mem_cons.mp h with rfl | h
    · exact Nat.le_refl _
    · exact Nat.le_of_succ_le (ih h)

theorem Memory.wf_ofBytesFrom (bs : List Byte) (start : Nat) : (Memory.ofBytesFrom start bs).wf := by
  induction bs generalizing start with
  | nil => exact List.Pairwise.nil
  | cons b bs ih => exact List.Pairwise.cons (fun _ h => Memory.start_le_of_mem_ofBytesFrom h) (ih _)

/-- The one operation that builds a store builds it in canonical form. -/
@[simp] theorem Memory.wf_ofBytes (bs : List Byte) : (Memory.ofBytes bs).wf := Memory.wf_ofBytesFrom bs 0

theorem Memory.ofBytesFrom_injective {bs cs : List Byte} {start : Nat}
    (h : Memory.ofBytesFrom start bs = Memory.ofBytesFrom start cs) : bs = cs := by
  induction bs generalizing cs start with
  | nil => cases cs with
    | nil => rfl
    | cons c cs => simp [Memory.ofBytesFrom] at h
  | cons b bs ih => cases cs with
    | nil => simp [Memory.ofBytesFrom] at h
    | cons c cs =>
      simp only [Memory.ofBytesFrom, List.cons.injEq, Prod.mk.injEq, true_and] at h
      rw [h.1, ih h.2]

/-- A store determines the byte sequence it was built from. -/
theorem Memory.ofBytes_injective {bs cs : List Byte} (h : Memory.ofBytes bs = Memory.ofBytes cs) : bs = cs :=
  Memory.ofBytesFrom_injective h

/-- `MSG[0..MSGLEN-1]` of a state that holds the message `m` is `m`. -/
theorem State.msgBytes_of_msg {s : State} {m : List Byte} (h : s.msg = Memory.ofBytes m) (hl : s.msgLen = m.length) :
    s.msgBytes = m := by
  apply List.ext_getElem?
  intro i
  by_cases hi : i < m.length
  · simp [State.msgBytes, State.msgByte, h, hl, hi]
  · simp [State.msgBytes, hl, hi]

/-- `PMEM[a]` of a state that holds the padded message `p`. -/
theorem State.pmemByte_of_pmem {s : State} {p : List Byte} (h : s.pmem = Memory.ofBytes p) {a : Nat} (ha : a < p.length) :
    s.pmemByte a = p.getD a 0#8 := by
  simp [State.pmemByte, h, ha]

end Sys2Proof.Machine
end

