-- ==== Sys2Proof/Laws/Exec.lean ====
section
/-! SUPPORT. Each meaning and each way to step as an equation, so that proofs cite it instead of unfolding. -/

namespace Sys2Proof.Machine

/-! ### Flags -/

theorem phaseQuiet_iff (p : BitVec 4) : phaseQuiet p = true ↔ p = Phase.idle ∨ p = Phase.done := by
  simp [phaseQuiet]

theorem phaseDone_iff (p : BitVec 4) : phaseDone p = true ↔ p = Phase.done := by simp [phaseDone]

theorem phaseBusy_iff (p : BitVec 4) :
    phaseBusy p = true ↔ p = Phase.pad ∨ p = Phase.load ∨ p = Phase.expand ∨ p = Phase.initv ∨ p = Phase.round
      ∨ p = Phase.accum ∨ p = Phase.format := by
  simp [phaseBusy, or_assoc]

/-- A busy core is not quiescent, so `START` has no effect on it. -/
theorem not_quiet_of_busy {p : BitVec 4} (h : phaseBusy p = true) : phaseQuiet p = false := by
  rcases (phaseBusy_iff p).mp h with rfl | rfl | rfl | rfl | rfl | rfl | rfl <;> rfl

/-! ### Meanings -/

theorem exec_pad (s : State) : exec .pad s = .next { s with
    pmem := Memory.ofBytes (pad s.msgBytes), nblk := blockCount s.msgLen, phase := Phase.load } := rfl

theorem exec_load (s : State) :
    exec .load s = .next { s with w := s.loadedSchedule, t := 16#7, phase := Phase.expand } := rfl

theorem exec_expand (s : State) : exec .expand s = .next { s with
    w := s.w.setIfInBounds s.t.toNat s.expandWord, t := s.t + 1#7, phase := afterExpand s.t } := rfl

theorem exec_initv (s : State) :
    exec .initv s = .next { s with vars := varsOf s.h, t := 0#7, phase := Phase.round } := rfl

theorem exec_round (s : State) : exec .round s = .next { s with
    vars := roundFn s.vars s.roundConst (s.schedule 0), t := s.t + 1#7, phase := afterRound s.t } := rfl

theorem exec_accum (s : State) : exec .accum s = .next { s with
    h := addVars s.h s.vars, blk := s.blk + 1, phase := afterAccum s.blk s.nblk } := rfl

theorem exec_format (s : State) : exec .format s = .next { s with
    digest := digestOf s.h, hex := hexOf (digestOf s.h), phase := Phase.done } := rfl

theorem exec_start (m : List Byte) (s : State) : exec (.start m) s = startWithin s.maxMsgBytes m s := rfl

theorem startWithin_fits {bound : Option Nat} {m : List Byte} (h : messageFits bound m = true) (s : State) :
    startWithin bound m s = .next (if s.quiet then s.beginMessage m else s) := by
  simp [startWithin, h]

theorem startWithin_too_long {bound : Option Nat} {m : List Byte} (h : messageFits bound m = false) (s : State) :
    startWithin bound m s = .refused (.messageTooLong m.length) := by
  simp [startWithin, h]

/-- `START` with a message the platform can offer. -/
theorem exec_start_fits {m : List Byte} {s : State} (h : messageFits s.maxMsgBytes m = true) :
    exec (.start m) s = .next (if s.quiet then s.beginMessage m else s) := startWithin_fits h s

/-- `START` with a message the platform cannot offer. -/
theorem exec_start_too_long {m : List Byte} {s : State} (h : messageFits s.maxMsgBytes m = false) :
    exec (.start m) s = .refused (.messageTooLong m.length) := startWithin_too_long h s

/-- Everything a `START` that goes on can do. -/
theorem exec_start_next {m : List Byte} {s t : State} (h : exec (.start m) s = .next t) :
    messageFits s.maxMsgBytes m = true ∧ (s.quiet = true ∧ t = s.beginMessage m ∨ s.quiet = false ∧ t = s) := by
  cases hf : messageFits s.maxMsgBytes m with
  | false => rw [exec_start_too_long hf] at h; cases h
  | true =>
    rw [exec_start_fits hf] at h
    obtain rfl := Host.Outcome.next.inj h
    cases hq : s.quiet <;> simp

theorem exec_reset (s : State) : exec .reset s = .next s.resetTo := rfl
theorem exec_nop (s : State) : exec .nop s = .next s := rfl
theorem exec_rsvd (s : State) : exec .rsvd s = .next s := rfl
theorem exec_rdstatus (s : State) : exec .rdstatus s = .next (s.reply (.status s.status)) := rfl
theorem exec_rddigest (s : State) : exec .rddigest s = .next s.replyDigest := rfl
theorem exec_rdhex (s : State) : exec .rdhex s = .next s.replyHex := rfl
theorem exec_hash (m : List Byte) (s : State) :
    exec (.hash m) s = .next (s.withScript (hashScript m ++ s.script)) := rfl

/-! ### Stepping -/

/-- What the core's own step does, whoever gave it the step. -/
def coreStep (s : State) : Host.Outcome State Fault Refusal :=
  match decodePhase s.phase with
  | .ok i => exec i s
  | .error _ => .next s

/-- With no line left the core steps. -/
theorem step_of_script_nil {s : State} (h : s.script = []) : step s = coreStep s := by
  simp only [step, State.fetch, h, decode]
  rfl

/-- An event line is run on the state without that line. -/
theorem step_of_script_event {s : State} {e : HostEvent} {rest : List ScriptLine} (h : s.script = .event e :: rest) :
    step s = exec (decodeHost e) (s.withScript rest) := by
  simp only [step, State.fetch, h, decode]

theorem step_of_script_run_zero {s : State} {rest : List ScriptLine} (h : s.script = .run 0 :: rest) :
    step s = .next (s.withScript rest) := by
  simp only [step, State.fetch, h]

theorem step_of_script_run_succ {s : State} {n : Nat} {rest : List ScriptLine} (h : s.script = .run (n + 1) :: rest) :
    step s = coreStep (s.withScript (.run n :: rest)) := by
  simp only [step, State.fetch, h, decode]
  rfl

theorem step_of_script_wait_done {s : State} {rest : List ScriptLine} (h : s.script = .waitDone :: rest)
    (hd : s.isDone = true) : step s = .next (s.withScript rest) := by
  simp only [step, State.fetch, h, hd, if_true]

theorem step_of_script_wait {s : State} {rest : List ScriptLine} (h : s.script = .waitDone :: rest)
    (hd : s.isDone = false) : step s = coreStep s := by
  simp only [step, State.fetch, h, hd, decode]
  rfl

@[simp] theorem decodePhase_idle : decodePhase Phase.idle = .error .idle := rfl
@[simp] theorem decodePhase_pad : decodePhase Phase.pad = .ok .pad := rfl
@[simp] theorem decodePhase_load : decodePhase Phase.load = .ok .load := rfl
@[simp] theorem decodePhase_expand : decodePhase Phase.expand = .ok .expand := rfl
@[simp] theorem decodePhase_initv : decodePhase Phase.initv = .ok .initv := rfl
@[simp] theorem decodePhase_round : decodePhase Phase.round = .ok .round := rfl
@[simp] theorem decodePhase_accum : decodePhase Phase.accum = .ok .accum := rfl
@[simp] theorem decodePhase_format : decodePhase Phase.format = .ok .format := rfl
@[simp] theorem decodePhase_done : decodePhase Phase.done = .error .done := rfl

/-- The phases that select no operation are the ones that are not busy. -/
theorem decodePhase_of_not_busy {p : BitVec 4} (h : phaseBusy p = false) : ∃ r, decodePhase p = .error r := by
  have hn := mt (phaseBusy_iff p).mpr (by simp [h])
  simp only [not_or] at hn
  obtain ⟨h1, h2, h3, h4, h5, h6, h7⟩ := hn
  unfold decodePhase
  simp only [h1, h2, h3, h4, h5, h6, h7, if_false]
  split_ifs <;> exact ⟨_, rfl⟩

theorem coreStep_of_decode {s : State} {i : Instr} (h : decodePhase s.phase = .ok i) : coreStep s = exec i s := by
  simp only [coreStep, h]

/-- With no enabled step the core holds its state (R16, R132). -/
theorem coreStep_of_not_busy {s : State} (h : phaseBusy s.phase = false) : coreStep s = .next s := by
  obtain ⟨r, hr⟩ := decodePhase_of_not_busy h
  simp only [coreStep, hr]

/-- The core's step, phase by phase (R16, R59). -/
theorem coreStep_cases (s : State) :
    (s.phase = Phase.pad ∧ coreStep s = exec .pad s) ∨ (s.phase = Phase.load ∧ coreStep s = exec .load s) ∨
    (s.phase = Phase.expand ∧ coreStep s = exec .expand s) ∨ (s.phase = Phase.initv ∧ coreStep s = exec .initv s) ∨
    (s.phase = Phase.round ∧ coreStep s = exec .round s) ∨ (s.phase = Phase.accum ∧ coreStep s = exec .accum s) ∨
    (s.phase = Phase.format ∧ coreStep s = exec .format s) ∨ (phaseBusy s.phase = false ∧ coreStep s = .next s) := by
  by_cases hb : phaseBusy s.phase = true
  · rcases (phaseBusy_iff _).mp hb with h | h | h | h | h | h | h
    · exact .inl ⟨h, coreStep_of_decode (by rw [h, decodePhase_pad])⟩
    · exact .inr (.inl ⟨h, coreStep_of_decode (by rw [h, decodePhase_load])⟩)
    · exact .inr (.inr (.inl ⟨h, coreStep_of_decode (by rw [h, decodePhase_expand])⟩))
    · exact .inr (.inr (.inr (.inl ⟨h, coreStep_of_decode (by rw [h, decodePhase_initv])⟩)))
    · exact .inr (.inr (.inr (.inr (.inl ⟨h, coreStep_of_decode (by rw [h, decodePhase_round])⟩))))
    · exact .inr (.inr (.inr (.inr (.inr (.inl ⟨h, coreStep_of_decode (by rw [h, decodePhase_accum])⟩)))))
    · exact .inr (.inr (.inr (.inr (.inr (.inr (.inl ⟨h, coreStep_of_decode (by rw [h, decodePhase_format])⟩))))))
  · exact .inr (.inr (.inr (.inr (.inr (.inr (.inr ⟨by simpa using hb, coreStep_of_not_busy (by simpa using hb)⟩))))))

/-- Everything a step can be: an event of the host, a step of the core on the state with the script moved on, or going on
to the next line. -/
theorem step_cases (s : State) :
    (∃ e rest, s.script = .event e :: rest ∧ step s = exec (decodeHost e) (s.withScript rest)) ∨
    (∃ l, step s = coreStep (s.withScript l)) ∨ (∃ l, step s = .next (s.withScript l)) := by
  match h : s.script with
  | [] => exact .inr (.inl ⟨[], by rw [step_of_script_nil h]; congr 1; cases s; simp_all [State.withScript]⟩)
  | .event e :: rest => exact .inl ⟨e, rest, rfl, step_of_script_event h⟩
  | .run 0 :: rest => exact .inr (.inr ⟨rest, step_of_script_run_zero h⟩)
  | .run (n + 1) :: rest => exact .inr (.inl ⟨.run n :: rest, step_of_script_run_succ h⟩)
  | .waitDone :: rest =>
    by_cases hd : s.isDone = true
    · exact .inr (.inr ⟨rest, step_of_script_wait_done h hd⟩)
    · refine .inr (.inl ⟨.waitDone :: rest, ?_⟩)
      rw [step_of_script_wait h (by simpa using hd)]; congr 1; cases s; simp_all [State.withScript]

/-! ### Runs -/

@[simp] theorem runSteps_zero (s : State) : runSteps 0 s = .next s := rfl

theorem runSteps_succ {s t : State} (h : step s = .next t) (n : Nat) : runSteps (n + 1) s = runSteps n t := by
  rw [runSteps, h]

/-- Two runs one after the other. -/
theorem runSteps_add {s t : State} {n : Nat} (h : runSteps n s = .next t) (k : Nat) :
    runSteps (n + k) s = runSteps k t := by
  induction n generalizing s with
  | zero =>
    obtain rfl : s = t := by simpa using h
    rw [Nat.zero_add]
  | succ n ih =>
    rw [runSteps] at h
    rw [Nat.add_right_comm, runSteps]
    cases hs : step s with
    | next u => rw [hs] at h; exact ih h
    | fault r => rw [hs] at h; cases h
    | refused r => rw [hs] at h; cases h

end Sys2Proof.Machine
end

