-- ==== Sys2Proof/Laws/PerInstr.lean ====
section
/-! SUPPORT. The family `RoundTrip`: the decoder reads an operation back from its own selector, one lemma per operation. -/

namespace Sys2Proof.Laws.RoundTrip

def Statement (i : Instr) : Prop := decode i.encode = .ok i

theorem pad : Statement .pad := rfl
theorem load : Statement .load := rfl
theorem expand : Statement .expand := rfl
theorem initv : Statement .initv := rfl
theorem round : Statement .round := rfl
theorem accum : Statement .accum := rfl
theorem format : Statement .format := rfl
theorem nop : Statement .nop := rfl
theorem start (m : List Byte) : Statement (.start m) := rfl
theorem reset : Statement .reset := rfl
theorem rsvd : Statement .rsvd := rfl
theorem rdstatus : Statement .rdstatus := rfl
theorem rddigest : Statement .rddigest := rfl
theorem rdhex : Statement .rdhex := rfl
theorem hash (m : List Byte) : Statement (.hash m) := rfl

end Sys2Proof.Laws.RoundTrip
end

