-- ==== Sys2Proof/Laws/Sha.lean ====
section
/-! SUPPORT. Lengths and element lemmas of the spec's pure functions. -/

namespace Sys2Proof.Machine

@[simp] theorem length_bytesBE (v n : Nat) : (bytesBE v n).length = n := by simp [bytesBE]

theorem getElem?_bytesBE (v n j : Nat) :
    (bytesBE v n)[j]? = if j < n then some (BitVec.ofNat 8 (v >>> (8 * (n - 1 - j)))) else none := by
  by_cases h : j < n <;> simp [bytesBE, h]

theorem padZeros_lt (L : Nat) : padZeros L < 64 := Nat.mod_lt _ (by decide)

/-- The padding zeros bring the length to 56 modulo 64. -/
theorem padZeros_mod (L : Nat) : (L + 1 + padZeros L) % 64 = 56 := by unfold padZeros; omega

/-- The division in `blockCount` is exact. -/
theorem blockCount_mul (L : Nat) : 64 * blockCount L = L + 1 + padZeros L + 8 := by
  have := padZeros_mod L
  unfold blockCount
  omega

theorem blockCount_pos (L : Nat) : 0 < blockCount L := by
  have := blockCount_mul L
  omega

theorem length_pad (m : List Byte) : (pad m).length = m.length + 1 + padZeros m.length + 8 := by
  simp [pad]; omega

@[simp] theorem length_block (p : List Byte) (b : Nat) : (block p b).length = 16 := by simp [block]

@[simp] theorem length_extend (blk : List Word) (n : Nat) : (extend blk n).length = blk.length + n := by
  induction n with
  | zero => rfl
  | succ n ih => simp [extend, ih]; omega

/-- Extending further keeps the words already there. -/
theorem getElem?_extend_succ {blk : List Word} {n i : Nat} (h : i < blk.length + n) :
    (extend blk (n + 1))[i]? = (extend blk n)[i]? := by
  rw [extend, List.getElem?_append_left (by simpa using h)]

/-- The word an extension adds. -/
theorem getElem?_extend_last (blk : List Word) (n : Nat) :
    (extend blk (n + 1))[blk.length + n]? = some (nextScheduleWord (extend blk n)) := by
  rw [extend, List.getElem?_append_right (by simp)]
  simp

@[simp] theorem length_romK : romK.length = 64 := by decide

end Sys2Proof.Machine
end

