-- ==== Sys2Proof/Tests/Slice0.lean ====
section
/-! SUPPORT. Tests, each on one step or one function, expected values from spec/95_test_vectors.md and
spec/96_test_traces.md; and for each statement with hypotheses a named witness that meets them. -/

namespace Sys2Proof.Tests

/- One theorem after the other: each theorem that the kernel decides would wait in a thread of its own for the ones
before it, and the check's memory limit holds fewer threads than this file has theorems. -/
set_option Elab.async false

open Sys2Proof.Machine

/-! ### Helpers -/

/-- A look at the state an outcome gives, if it gives one. -/
def look {α : Type} (o : Host.Outcome State Fault Refusal) (f : State → α) : Option α :=
  match o with
  | .next t => some (f t)
  | .fault _ => none
  | .refused _ => none

/-- The message `61 62 63` (95, 2.5). -/
def abc : List Byte := [0x61#8, 0x62#8, 0x63#8]

/-- `00 01 .. 3f` (95, 2.2). -/
def upTo3f : List Byte := (List.range 64).map (BitVec.ofNat 8)

/-- The core with the message `m` taken over and padded, at the phase, `T` and `BLK` given. -/
def paddedAt (m : List Byte) (p : BitVec 4) (t : BitVec 7) (b : Nat) : State :=
  { State.reset with
    msg := Memory.ofBytes m, msgLen := m.length, pmem := Memory.ofBytes (pad m), nblk := blockCount m.length
    phase := p, t := t, blk := b, h := romIV }

/-- The same with a schedule: word `i` is `f i`. -/
def scheduledAt (f : Nat → Word) (p : BitVec 4) (t : BitVec 7) : State :=
  { paddedAt abc p t 0 with w := Vector.ofFn fun i => f i.val }

/-- `W[0..15]` of the message `61 62 63` (96, T1). -/
def abcWords (i : Nat) : Word := if i = 0 then 0x61626380#32 else if i = 15 then 0x00000018#32 else 0#32

/-- The core that has hashed `m`. -/
def doneWith (m : List Byte) : State :=
  { paddedAt m Phase.done 64#7 (blockCount m.length) with
    h := finalHash m, digest := digestOf (finalHash m), hex := sha256hex m }

/-- The host's events in their line. -/
def hostLine (e : HostEvent) (s : State) : State := { s with script := [.event e] }

/-! ### WellFormed refuses each ill-formed term (R105: `len(m) > MAX_MSG_BYTES`) -/

theorem test_wellFormed_start_too_long : (Instr.start abc).wellFormedFor (some 2) = false := by decide
theorem test_wellFormed_start_at_bound : (Instr.start abc).wellFormedFor (some 3) = true := by decide
theorem test_wellFormed_hash_too_long : (Instr.hash abc).wellFormedFor (some 2) = false := by decide
theorem test_wellFormed_hash_at_bound : (Instr.hash abc).wellFormedFor (some 3) = true := by decide

/-! ### Decoding, each code bit by bit from R58 and R59 -/

theorem test_decode_pad : decode (.phase 0b0001#4) = .ok .pad := by rfl
theorem test_decode_load : decode (.phase 0b0010#4) = .ok .load := by rfl
theorem test_decode_expand : decode (.phase 0b0011#4) = .ok .expand := by rfl
theorem test_decode_initv : decode (.phase 0b0100#4) = .ok .initv := by rfl
theorem test_decode_round : decode (.phase 0b0101#4) = .ok .round := by rfl
theorem test_decode_accum : decode (.phase 0b0110#4) = .ok .accum := by rfl
theorem test_decode_format : decode (.phase 0b0111#4) = .ok .format := by rfl
theorem test_decode_idle : decode (.phase 0b0000#4) = .error .idle := by rfl
theorem test_decode_done : decode (.phase 0b1000#4) = .error .done := by rfl
theorem test_decode_reserved_first : decode (.phase 0b1001#4) = .error (.reservedPhase 0b1001#4) := by rfl
theorem test_decode_reserved_last : decode (.phase 0b1111#4) = .error (.reservedPhase 0b1111#4) := by rfl
theorem test_decode_nop : decode (.host (.command 0b00 abc)) = .ok .nop := by rfl
theorem test_decode_start : decode (.host (.command 0b01 abc)) = .ok (.start abc) := by rfl
theorem test_decode_reset : decode (.host (.command 0b10 abc)) = .ok .reset := by rfl
theorem test_decode_rsvd : decode (.host (.command 0b11 abc)) = .ok .rsvd := by rfl
/-- The upper bits of the bus are ignored (R57). -/
theorem test_decode_wide_bus : decode (.host (.command 0xfffffffd abc)) = .ok (.start abc) := by rfl
/-- `RESET` wins over a command presented with it (R124 item 2). -/
theorem test_decode_reset_input : decode (.host (.resetInput (some (0b01, abc)))) = .ok .reset := by rfl
theorem test_decode_rdstatus : decode (.host (.read .status)) = .ok .rdstatus := by rfl
theorem test_decode_rddigest : decode (.host (.read .digest)) = .ok .rddigest := by rfl
theorem test_decode_rdhex : decode (.host (.read .hex)) = .ok .rdhex := by rfl
theorem test_decode_hash : decode (.host (.hash abc)) = .ok (.hash abc) := by rfl
theorem test_tableWord_phase : decodeTableWord 8 0x05 = some .round := by rfl
theorem test_tableWord_command : decodeTableWord 2 0b01 = some (.start []) := by rfl
theorem test_tableWord_nop : decodeTableWord 8 0x00 = some .nop := by rfl

/-! ### Primitives (95, 2.1, 2.4, 2.7, 2.9) -/

theorem test_rotr : rotr 0x12345678#32 7 = 0xf02468ac#32 ∧ rotr 0x80000000#32 31 = 0x00000001#32 := by decide
theorem test_shr : shr 0xffffffff#32 10 = 0x003fffff#32 := by decide
theorem test_add32_wraps : add32 0xbb67ae85#32 0xd39a2165#32 = 0x8f01cfea#32 := by decide
theorem test_not32 : not32 0x510e527f#32 = 0xaef1ad80#32 := by decide
theorem test_smallSigma : smallSigma0 0x12345678#32 = 0xe7fce6ee#32 ∧ smallSigma1 0x12345678#32 = 0xa1f78649#32 := by
  decide
theorem test_bigSigma : bigSigma0 0x12345678#32 = 0x66146474#32 ∧ bigSigma1 0x12345678#32 = 0x3561abda#32 := by decide
theorem test_ch : ch 0xf0f0f0f0#32 0xffff0000#32 0x00ffff00#32 = 0xf0ff0f00#32 := by decide
theorem test_maj : maj 0xf0f0f0f0#32 0xffff0000#32 0x00ffff00#32 = 0xf0fff000#32 := by decide
theorem test_hexdigit : hexdigit 9#4 = 0x39#8 ∧ hexdigit 10#4 = 0x61#8 := by decide

/-! ### One step per operation -/

/-- 95, 2.2, `L = 3`: the message, the mark, the last byte of the length field, nothing after it. -/
theorem test_pad_abc : look (exec .pad { State.reset with msg := Memory.ofBytes abc, msgLen := 3, phase := Phase.pad })
    (fun t => ([0, 2, 3, 4, 62, 63, 64].map t.pmem.read?, t.nblk)) =
    some ([some 0x61#8, some 0x63#8, some 0x80#8, some 0x00#8, some 0x00#8, some 0x18#8, none], 1) := by decide +kernel
/-- 95, 2.2, `L = 56`: two blocks, the length field `01c0` at the end of the second. -/
theorem test_pad_two_blocks : look (exec .pad { State.reset with
      msg := Memory.ofBytes (List.replicate 56 0xff#8), msgLen := 56, phase := Phase.pad })
    (fun t => ([55, 56, 57, 125, 126, 127].map t.pmem.read?, t.nblk)) =
    some ([some 0xff#8, some 0x80#8, some 0x00#8, some 0x00#8, some 0x01#8, some 0xc0#8], 2) := by decide +kernel
/-- 95, 2.3, block 0 of `00 01 .. 3f`. -/
theorem test_load_block0 : look (exec .load (paddedAt upTo3f Phase.load 0#7 0)) (fun t => (t.w[0], t.w[15], t.t, t.phase)) =
    some (0x00010203#32, 0x3c3d3e3f#32, 16#7, 0x3#4) := by decide +kernel
/-- 95, 2.3, block 1 of `00 01 .. 3f`. -/
theorem test_load_block1 : look (exec .load (paddedAt upTo3f Phase.load 0#7 1)) (fun t => (t.w[0], t.w[14], t.w[15])) =
    some (0x80000000#32, 0#32, 0x00000200#32) := by decide +kernel
/-- 95, 2.4, `abc`, `t = 17`. -/
theorem test_expand_17 : look (exec .expand (scheduledAt abcWords Phase.expand 17#7)) (fun t => (t.w[17], t.t, t.phase)) =
    some (0x000f0000#32, 18#7, 0x3#4) := by decide +kernel
/-- 95, 2.4, 119 x `ff`, `t = 63`: four different taps, a sum that wraps, and on to `INITV`. -/
theorem test_expand_63 : look (exec .expand (scheduledAt (fun i => if i = 61 then 0x9694208c#32 else
      if i = 56 then 0x71b516d9#32 else if i = 48 then 0x7adc6145#32 else if i = 47 then 0xa7a7b143#32 else 0#32)
      Phase.expand 63#7)) (fun t => (t.w[63], t.t, t.phase)) = some (0x4bceaf09#32, 64#7, 0x4#4) := by decide +kernel
/-- 96, T1, after INITV. -/
theorem test_initv : look (exec .initv (paddedAt abc Phase.initv 64#7 0)) (fun t => (t.vars, t.t, t.phase)) =
    some (⟨0x6a09e667#32, 0xbb67ae85#32, 0x3c6ef372#32, 0xa54ff53a#32, 0x510e527f#32, 0x9b05688c#32, 0x1f83d9ab#32,
      0x5be0cd19#32⟩, 0#7, 0x5#4) := by decide +kernel
/-- 96, T1, round 0. -/
theorem test_round_0 : look (exec .round { scheduledAt abcWords Phase.round 0#7 with vars := varsOf romIV })
    (fun t => (t.vars, t.t, t.phase)) =
    some (⟨0x5d6aebcd#32, 0x6a09e667#32, 0xbb67ae85#32, 0x3c6ef372#32, 0xfa2a4622#32, 0x510e527f#32, 0x9b05688c#32,
      0x1f83d9ab#32⟩, 1#7, 0x5#4) := by decide +kernel
/-- 95, 2.7: the round on small values, every register's move. -/
theorem test_roundFn : roundFn ⟨1#32, 2#32, 3#32, 4#32, 5#32, 6#32, 7#32, 8#32⟩ 0x10000000#32 0x00000100#32 =
    ⟨0x64a80791#32, 1#32, 2#32, 3#32, 0x24a00392#32, 5#32, 6#32, 7#32⟩ := by decide +kernel
/-- 96, T1, ACCUM: `H[1]` wraps, the last block goes on to FORMAT. -/
theorem test_accum : look (exec .accum { paddedAt abc Phase.accum 64#7 0 with
      vars := ⟨0x506e3058#32, 0xd39a2165#32, 0x04d24d6c#32, 0xb85e2ce9#32, 0x5ef50f24#32, 0xfb121210#32, 0x948d25b6#32,
        0x961f4894#32⟩ }) (fun t => (t.h[0], t.h[1], t.h[7], t.blk, t.phase)) =
    some (0xba7816bf#32, 0x8f01cfea#32, 0xf20015ad#32, 1, 0x7#4) := by decide +kernel
/-- R94: not the last block, so back to LOAD. -/
theorem test_accum_more : look (exec .accum (paddedAt upTo3f Phase.accum 64#7 0)) (fun t => (t.blk, t.phase)) =
    some (1, 0x2#4) := by decide +kernel
/-- 95, 2.9, the first row. -/
theorem test_format : look (exec .format { paddedAt abc Phase.format 64#7 1 with
      h := #v[0xba7816bf#32, 0x8f01cfea#32, 0x414140de#32, 0x5dae2223#32, 0xb00361a3#32, 0x96177a9c#32, 0xb410ff61#32,
        0xf20015ad#32] })
    (fun t => (t.digest.toList.take 4, t.hex.toList.take 8, t.status)) =
    some ([0xba#8, 0x78#8, 0x16#8, 0xbf#8], [0x62#8, 0x61#8, 0x37#8, 0x38#8, 0x31#8, 0x36#8, 0x62#8, 0x66#8], 0x28#8) := by
  decide +kernel

/-- R107. -/
theorem test_nop : look (exec .nop (doneWith abc)) (·.phase) = some 0x8#4 := by decide +kernel
/-- R105, R60: START in `IDLE`. -/
theorem test_start_idle : look (exec (.start abc) State.reset) (fun t => (t.status, t.msgLen, t.msg.read? 2, t.h[0])) =
    some (0x11#8, 3, some 0x63#8, 0x6a09e667#32) := by decide +kernel
/-- R105: START while the core is busy has no effect. -/
theorem test_start_busy : exec (.start abc) (paddedAt upTo3f Phase.round 9#7 1) =
    .next (paddedAt upTo3f Phase.round 9#7 1) := by rfl
/-- R106, from a reserved phase. -/
theorem test_reset_reserved : look (exec .reset { State.reset with phase := 0xb#4 }) (fun t => (t.phase, t.status)) =
    some (0x0#4, 0x00#8) := by decide +kernel
/-- R106 through the reset input, in the middle of a run. -/
theorem test_reset_input : look (step (hostLine (.resetInput none) (paddedAt abc Phase.round 5#7 0))) (·.phase) =
    some 0x0#4 := by decide +kernel
/-- R107. -/
theorem test_rsvd : look (exec .rsvd (paddedAt abc Phase.round 5#7 0)) (·.phase) = some 0x5#4 := by decide +kernel
/-- R60, R108. -/
theorem test_rdstatus : look (exec .rdstatus (paddedAt abc Phase.expand 20#7 0)) (·.replies) =
    some [.status 0x13#8] := by decide +kernel
/-- R60, R108, in `DONE`. -/
theorem test_rdstatus_done : look (exec .rdstatus { State.reset with phase := Phase.done }) (·.replies) =
    some [.status 0x28#8] := by decide +kernel
/-- R109, in `DONE`. -/
theorem test_rddigest : look (exec .rddigest { State.reset with phase := Phase.done, digest := Vector.replicate 32 0xa5#8 })
    (·.replies) = some [.digest (Vector.replicate 32 0xa5#8)] := by decide +kernel
/-- R110, in `DONE`. -/
theorem test_rdhex : look (exec .rdhex { State.reset with phase := Phase.done, hex := Vector.replicate 64 0x61#8 })
    (·.replies) = some [.hex (Vector.replicate 64 0x61#8)] := by decide +kernel
/-- R64. -/
theorem test_hash : look (exec (.hash abc) State.reset) (·.script) =
    some [.event (.command 1 abc), .waitDone, .event (.read .hex)] := by decide +kernel

/-- 95, 2.6: the whole function on the empty message. -/
theorem test_finalHash_empty : finalHash [] = #v[0xe3b0c442#32, 0x98fc1c14#32, 0x9afbf4c8#32, 0x996fb924#32, 0x27ae41e4#32,
    0x649b934c#32, 0xa495991b#32, 0x7852b855#32] := by decide +kernel

/-! ### Witnesses: the hypotheses of each statement can be met -/

theorem witness_EncodingIsFaithful_same : (Instr.start abc).encode = (Instr.start abc).encode := by rfl

theorem witness_PlacedWordIsRun : decodeTableWord 8 0x07 = some .format ∧ decodeTableWord 2 0b11 = some .rsvd := by
  decide

theorem witness_StepRunsDecodedOperation_host :
    (hostLine (.read .hex) State.reset).script = .event (.read .hex) :: [] ∧ decode (.host (.read .hex)) = .ok .rdhex :=
  ⟨rfl, rfl⟩

theorem witness_StepRunsDecodedOperation_core :
    (paddedAt abc Phase.load 0#7 0).script = [] ∧ decode (.phase (paddedAt abc Phase.load 0#7 0).phase) = .ok .load :=
  ⟨rfl, rfl⟩

/-- The state with one line of script. -/
def lineAt (l : ScriptLine) (p : BitVec 4) : State := { State.reset with phase := p, script := [l] }

theorem witness_ScriptLinesPaceTheCore :
    (lineAt (.run 0) Phase.pad).script = .run 0 :: [] ∧
    ((lineAt (.run 1) Phase.pad).script = .run (0 + 1) :: [] ∧ decode (.phase (lineAt (.run 1) Phase.pad).phase) = .ok .pad) ∧
    ((lineAt (.run 1) Phase.idle).script = .run (0 + 1) :: [] ∧
      decode (.phase (lineAt (.run 1) Phase.idle).phase) = .error .idle) ∧
    ((lineAt .waitDone Phase.done).script = .waitDone :: [] ∧ (lineAt .waitDone Phase.done).phase = Phase.done) ∧
    ((lineAt .waitDone Phase.round).script = .waitDone :: [] ∧
      decode (.phase (lineAt .waitDone Phase.round).phase) = .ok .round) ∧
    ((lineAt .waitDone Phase.idle).script = .waitDone :: [] ∧ (lineAt .waitDone Phase.idle).phase ≠ Phase.done ∧
      decode (.phase (lineAt .waitDone Phase.idle).phase) = .error .idle) :=
  ⟨rfl, ⟨rfl, rfl⟩, ⟨rfl, rfl⟩, ⟨rfl, rfl⟩, ⟨rfl, rfl⟩, rfl, by decide, rfl⟩

/-- Each row of R59, the loops at their first and at their last turn, the reserved codes at both ends. -/
theorem witness_SequencerFollowsItsTable : ∀ p : BitVec 4, ∀ t ∈ [0#7, 16#7, 62#7, 63#7],
    (paddedAt abc p t 0).script = [] ∧ (paddedAt abc p t 0).phase = p ∧ (paddedAt abc p t 0).t = t ∧
    messageFits (paddedAt abc p t 0).maxMsgBytes abc = true := by decide +kernel

theorem witness_SequencerFollowsItsTable_blocks :
    (paddedAt upTo3f Phase.accum 64#7 0).blk + 1 ≠ (paddedAt upTo3f Phase.accum 64#7 0).nblk ∧
    (paddedAt upTo3f Phase.accum 64#7 1).blk + 1 = (paddedAt upTo3f Phase.accum 64#7 1).nblk ∧
    0x9#4 ≤ (paddedAt abc 0x9#4 0#7 0).phase ∧ 0x9#4 ≤ (paddedAt abc 0xf#4 0#7 0).phase := by decide +kernel

/-- The three cases: an operation that can be offered, a step that goes on, a `START` the platform cannot offer. -/
theorem witness_NoOperationEndsInAnError : (Instr.start abc).wellFormedFor (State.resetFor (some 3)).maxMsgBytes = true ∧
    step State.reset = .next State.reset ∧
    step (hostLine (.command 1 abc) (State.resetFor (some 2))) = .refused (.messageTooLong 3) := ⟨rfl, rfl, rfl⟩

theorem witness_QuiescentCoreHoldsState : State.reset.script = [] ∧ State.reset.phase = Phase.idle ∧
    (paddedAt abc Phase.done 64#7 1).script = [] ∧ (paddedAt abc Phase.done 64#7 1).phase = Phase.done := by decide +kernel

/-- Each transition of the sequencer happens: the phase entered, from the phase before it. -/
theorem witness_NoTransitionIsSkipped :
    look (step (paddedAt abc Phase.pad 0#7 0)) (·.phase) = some Phase.load ∧
    look (step (paddedAt upTo3f Phase.accum 64#7 0)) (·.phase) = some Phase.load ∧
    look (step (paddedAt abc Phase.load 0#7 0)) (·.phase) = some Phase.expand ∧
    look (step (paddedAt abc Phase.expand 63#7 0)) (·.phase) = some Phase.initv ∧
    look (step (paddedAt abc Phase.initv 64#7 0)) (·.phase) = some Phase.round ∧
    look (step (paddedAt abc Phase.round 63#7 0)) (·.phase) = some Phase.accum ∧
    look (step (paddedAt abc Phase.accum 64#7 0)) (·.phase) = some Phase.format ∧
    look (step (paddedAt abc Phase.format 64#7 1)) (·.phase) = some Phase.done ∧
    look (step (hostLine (.command 1 abc) State.reset)) (·.phase) = some Phase.pad ∧
    look (step (hostLine (.command 2 []) (paddedAt abc Phase.pad 0#7 0))) (·.phase) = some Phase.idle := by
  decide +kernel

theorem witness_WordPrimitives : (0 < 1 ∧ 1 < 32) ∧ 0 < 31 ∧ 31 < 32 := by decide

theorem witness_StatusFormat : phaseLegal Phase.idle = true ∧ phaseLegal Phase.done = true ∧ phaseLegal 0x9#4 = false := by
  decide

theorem witness_DoneOutputIsTheFlag : messageFits State.reset.maxMsgBytes abc = true ∧ State.reset.phase = Phase.idle ∧ (paddedAt abc Phase.done 0#7 1).phase = Phase.done ∧
    (paddedAt abc Phase.done 0#7 1).doneOutput = true := by decide +kernel

/-- The three sorts of byte and the eight bytes of the length field are all there. -/
theorem witness_PadWritesPaddedMessage : (0 < abc.length ∧ 2 < abc.length) ∧ (3 < 4 ∧ 4 < 3 + 1 + 52 ∧ 55 < 3 + 1 + 52) ∧
    64 * 1 ≤ 64 := by decide

theorem witness_PaddingProperties : padZeros 3 = 52 ∧ 51 < padZeros 3 ∧ 8 * abc.length < 2 ^ 64 ∧ 8 * upTo3f.length < 2 ^ 64 ∧
    pad abc = pad abc := by decide +kernel

theorem witness_BlocksAreABijection : (pad abc).length = 64 * 1 ∧ ∀ b, b < 1 → block (pad abc) b = block (pad abc) b :=
  ⟨by decide +kernel, fun _ _ => rfl⟩

/-- LOAD's last clause, at the first and at the last block. -/
theorem witness_LoadReadsBlock : ∀ b, b < 2 → (paddedAt upTo3f Phase.load 0#7 b).pmem = Memory.ofBytes (pad upTo3f) ∧
    (pad upTo3f).length = 64 * (paddedAt upTo3f Phase.load 0#7 b).nblk ∧
    (paddedAt upTo3f Phase.load 0#7 b).blk < (paddedAt upTo3f Phase.load 0#7 b).nblk := by decide +kernel

theorem witness_ExpandComputesWord_first : 16 ≤ (paddedAt abc Phase.expand 16#7 0).t.toNat ∧
    (paddedAt abc Phase.expand 16#7 0).t.toNat ≤ 63 := by decide +kernel
theorem witness_ExpandComputesWord_last : 16 ≤ (paddedAt abc Phase.expand 63#7 0).t.toNat ∧
    (paddedAt abc Phase.expand 63#7 0).t.toNat ≤ 63 := by decide +kernel

theorem witness_BlockScheduleIsExpanded : ∀ b, b < 2 → (paddedAt upTo3f Phase.load 0#7 b).script = [] ∧
    (paddedAt upTo3f Phase.load 0#7 b).phase = Phase.load ∧
    (paddedAt upTo3f Phase.load 0#7 b).pmem = Memory.ofBytes (pad upTo3f) ∧
    (pad upTo3f).length = 64 * (paddedAt upTo3f Phase.load 0#7 b).nblk ∧
    (paddedAt upTo3f Phase.load 0#7 b).blk < (paddedAt upTo3f Phase.load 0#7 b).nblk := by decide +kernel

theorem witness_RoundMixesWorkingVariables : (paddedAt abc Phase.round 0#7 0).t.toNat ≤ 63 ∧
    (paddedAt abc Phase.round 63#7 0).t.toNat ≤ 63 := by decide +kernel

/-- A schedule that is the block's, a hash state that is the chaining value. -/
theorem witness_BlockIsCompressed : let s := scheduledAt (fun i => (expandBlock (block (pad abc) 0)).getD i 0#32) Phase.initv 64#7
    s.script = [] ∧ s.phase = Phase.initv ∧ s.h = chain (pad abc) s.blk ∧
      s.w.toList = expandBlock (block (pad abc) s.blk) := by decide +kernel

/-- A step that leaves `H`, a step that adds into it, a step that replaces it. -/
theorem witness_HashStateWriters : look (step (paddedAt abc Phase.initv 64#7 0)) (·.h) = some romIV ∧
    look (step { paddedAt abc Phase.accum 64#7 0 with vars := varsOf romIV }) (·.blk) = some 1 ∧
    (hostLine (.command 1 abc) State.reset).restarts = true := by decide +kernel

theorem witness_StartBeginsMessage : State.reset.phase = Phase.idle ∧ (paddedAt abc Phase.done 64#7 1).phase = Phase.done ∧
    (paddedAt abc Phase.pad 0#7 0).phase ≠ Phase.idle ∧ (paddedAt abc Phase.pad 0#7 0).phase ≠ Phase.done ∧
    messageFits (State.resetFor (some 3)).maxMsgBytes abc = true ∧
    (State.resetFor (some 2)).maxMsgBytes = some 2 ∧ 2 < abc.length :=
  ⟨rfl, rfl, by decide, by decide, rfl, rfl, by decide⟩

/-- A message held within the bound, at the bound; and `IDLE`; each steps. -/
theorem witness_BoundIsFixedAndKept : ({ paddedAt abc Phase.pad 0#7 0 with maxMsgBytes := some 3 } : State).lengthFits ∧
    (State.resetFor (some 0)).phase = Phase.idle ∧ step (State.resetFor (some 0)) = .next (State.resetFor (some 0)) ∧
    look (step { paddedAt abc Phase.pad 0#7 0 with maxMsgBytes := some 3 }) (·.maxMsgBytes) = some (some 3) :=
  ⟨fun b h => by cases h; decide, rfl, rfl, by decide +kernel⟩

/-- A bounded platform: the whole machine, and its refusal of a message one byte too long (R105). -/
theorem test_start_over_bound : exec (.start abc) (State.resetFor (some 2)) = .refused (.messageTooLong 3) := by rfl

/-- The host's machine is the one with the default of R5. -/
theorem core_eq_coreFor_none : Sys2Proof.core = coreFor none := rfl

theorem witness_ResetGoesToIdle : (hostLine (.command 0b10 []) State.reset).script = .event (.command 0b10 []) :: [] ∧
    (hostLine (.resetInput (some (1, abc))) State.reset).script = .event (.resetInput (some (1, abc))) :: [] := by decide +kernel

theorem witness_ResetKeepsNothing : State.reset.maxMsgBytes = (paddedAt abc Phase.round 5#7 0).maxMsgBytes ∧ State.reset.draws = (paddedAt abc Phase.round 5#7 0).draws := by decide +kernel

theorem witness_ReadDigestReturnsDigest : (doneWith abc).phase = Phase.done ∧ State.reset.phase ≠ Phase.done := by decide +kernel

theorem witness_BusyCoreIgnoresHost : (paddedAt abc Phase.pad 0#7 0).busy = true ∧
    (paddedAt abc Phase.format 64#7 1).busy = true ∧ decodeHost (.command 1 abc) ≠ .reset ∧
    messageFits (paddedAt abc Phase.pad 0#7 0).maxMsgBytes abc = true := by decide +kernel

/-- Each of the three outcomes. -/
theorem witness_OnlyResetInterruptsARun : (paddedAt abc Phase.format 64#7 1).busy = true ∧
    look (step (paddedAt abc Phase.format 64#7 1)) (·.phase) = some Phase.done ∧
    look (step (paddedAt abc Phase.round 0#7 0)) (·.busy) = some true ∧
    look (step (hostLine (.command 2 []) (paddedAt abc Phase.round 0#7 0))) (·.phase) = some Phase.idle := by decide +kernel

theorem witness_OutputIsWrittenOnlyByFormat :
    (hostLine (.read .digest) (paddedAt abc Phase.done 64#7 1)).restarts = false ∧
    (hostLine (.read .digest) (paddedAt abc Phase.done 64#7 1)).phase ≠ Phase.format ∧
    look (step (hostLine (.read .digest) (paddedAt abc Phase.done 64#7 1))) (·.phase) = some Phase.done := by decide +kernel

theorem witness_MessageIsImmutable : (hostLine (.command 1 upTo3f) (paddedAt abc Phase.round 0#7 0)).restarts = false ∧
    look (step (hostLine (.command 1 upTo3f) (paddedAt abc Phase.round 0#7 0))) (·.msgLen) = some 3 := by decide +kernel

theorem witness_StoresStayCanonical : (paddedAt abc Phase.pad 0#7 0).msg.wf ∧ (paddedAt abc Phase.pad 0#7 0).pmem.wf ∧
    (look (step (paddedAt abc Phase.pad 0#7 0)) (·.nblk)).isSome = true := by decide +kernel

/-- The range invariants hold of the padded core wherever the phase, `T` and `BLK` go together. -/
theorem range_paddedAt (p : BitVec 4) (t : BitVec 7) (b : Nat)
    (h : phaseLegal p = true ∧ (p = Phase.pad → b = 0) ∧ (phaseInBlock p = true → b < 1) ∧
      (p = Phase.expand → 16 ≤ t.toNat ∧ t.toNat ≤ 63) ∧ (p = Phase.round → t.toNat ≤ 63) ∧
      (p = Phase.initv ∨ p = Phase.accum → t = 64#7) ∧ (p = Phase.format ∨ p = Phase.done → b = 1)) :
    RangeInvariant (paddedAt abc p t b) := by
  obtain ⟨h1, h2, h3, h4, h5, h6, h7⟩ := h
  exact ⟨h1, fun _ => ⟨abc, rfl, rfl⟩, h2, fun hp => ⟨h3 hp, Nat.le_refl 1, rfl, abc, ⟨rfl, rfl⟩, rfl⟩, h4, h5,
    h6, h7⟩

/-- The range invariants at every phase and at the ends of the ranges of `T`; and each of these states steps. -/
theorem witness_RangeInvariantIsKept : ∀ x ∈ [(Phase.idle, 0#7, 0), (Phase.pad, 0#7, 0), (Phase.load, 0#7, 0),
      (Phase.expand, 16#7, 0), (Phase.expand, 63#7, 0), (Phase.initv, 64#7, 0), (Phase.round, 0#7, 0),
      (Phase.round, 63#7, 0), (Phase.accum, 64#7, 0), (Phase.format, 64#7, 1), (Phase.done, 64#7, 1)],
    RangeInvariant (paddedAt abc x.1 x.2.1 x.2.2) ∧
      (look (step (paddedAt abc x.1 x.2.1 x.2.2)) (·.draws)).isSome = true := by
  intro x hx
  simp only [List.mem_cons, List.not_mem_nil, or_false] at hx
  rcases hx with rfl | rfl | rfl | rfl | rfl | rfl | rfl | rfl | rfl | rfl | rfl <;>
    exact ⟨range_paddedAt _ _ _ (by decide), by decide +kernel⟩

/-- The same four phases at the ends of their ranges meet the hypotheses of `NoAbsentElementIsRead`, and there is
something to read. -/
theorem witness_NoAbsentElementIsRead : RangeInvariant (paddedAt abc Phase.pad 0#7 0) ∧
    2 < (paddedAt abc Phase.pad 0#7 0).msgLen ∧ RangeInvariant (paddedAt abc Phase.load 0#7 0) ∧
    RangeInvariant (paddedAt abc Phase.expand 16#7 0) ∧ RangeInvariant (paddedAt abc Phase.expand 63#7 0) ∧
    RangeInvariant (paddedAt abc Phase.round 0#7 0) ∧ RangeInvariant (paddedAt abc Phase.round 63#7 0) :=
  ⟨range_paddedAt _ _ _ (by decide), by decide, range_paddedAt _ _ _ (by decide), range_paddedAt _ _ _ (by decide),
    range_paddedAt _ _ _ (by decide), range_paddedAt _ _ _ (by decide), range_paddedAt _ _ _ (by decide)⟩

/-- A run after a RESET in the middle of a run. -/
theorem witness_RangeInvariantIsKept_reset : let s := hostLine (.command 1 abc) (paddedAt upTo3f Phase.round 5#7 1)
    exec .reset s = .next s.resetTo ∧ runSteps 1 s.resetTo = .next ((s.resetTo.withScript []).beginMessage abc) :=
  ⟨rfl, rfl⟩

/-- After an effective START the core hashes the message. -/
theorem tracks_started (m : List Byte) (s : State) : Tracks (s.beginMessage m) m where
  legal := .inl rfl
  message := ⟨rfl, rfl⟩
  padding := fun _ => ⟨rfl, rfl⟩
  padded := fun h => absurd rfl h
  inBlock := fun h => absurd (show phaseInBlock Phase.pad = true from h) (by decide)
  expand := fun h => absurd (show Phase.pad = Phase.expand from h) (by decide)
  initv := fun h => absurd (show Phase.pad = Phase.initv from h) (by decide)
  round := fun h => absurd (show Phase.pad = Phase.round from h) (by decide)
  accum := fun h => absurd (show Phase.pad = Phase.accum from h) (by decide)
  finished := fun h => absurd (show Phase.pad = Phase.format ∨ Phase.pad = Phase.done from h) (by decide)
  done := fun h => absurd (show Phase.pad = Phase.done from h) (by decide)

/-- The core that shows the digest of a message has hashed it. -/
theorem tracks_doneWith (m : List Byte) : Tracks (doneWith m) m where
  legal := .inr rfl
  message := ⟨rfl, rfl⟩
  padding := fun h => absurd (show Phase.done = Phase.pad from h) (by decide)
  padded := fun _ => ⟨rfl, rfl⟩
  inBlock := fun h => absurd (show phaseInBlock Phase.done = true from h) (by decide)
  expand := fun h => absurd (show Phase.done = Phase.expand from h) (by decide)
  initv := fun h => absurd (show Phase.done = Phase.initv from h) (by decide)
  round := fun h => absurd (show Phase.done = Phase.round from h) (by decide)
  accum := fun h => absurd (show Phase.done = Phase.accum from h) (by decide)
  finished := fun _ => ⟨rfl, rfl⟩
  done := fun _ => ⟨rfl, rfl⟩

/-- In `IDLE`, at the start of a run, and with a digest on show; each of these states steps. -/
theorem witness_DigestInvariantIsKept : DigestInvariant State.reset ∧ DigestInvariant (State.reset.beginMessage abc) ∧
    DigestInvariant (doneWith abc) ∧ step (State.reset.beginMessage abc) = exec .pad (State.reset.beginMessage abc) ∧
    step (doneWith abc) = .next (doneWith abc) :=
  ⟨.inl rfl, .inr ⟨abc, tracks_started abc _⟩, .inr ⟨abc, tracks_doneWith abc⟩, rfl, rfl⟩

theorem witness_RunComputesSha256 : messageFits (State.resetFor (some 3)).maxMsgBytes abc = true ∧
    (State.resetFor (some 3)).phase = Phase.idle ∧ (State.resetFor (some 3)).script = [] ∧ State.reset.phase = Phase.idle ∧ State.reset.script = [] ∧
    (doneWith abc).phase = Phase.done ∧ (doneWith abc).script = [] := ⟨rfl, rfl, rfl, rfl, rfl, rfl, rfl⟩

theorem witness_ResultIndependentOfEarlierState : State.reset.quiet = true ∧ (doneWith upTo3f).quiet = true ∧
    State.reset.script = [] ∧ (doneWith upTo3f).script = [] ∧
    exec (.start abc) State.reset = .next (State.reset.beginMessage abc) ∧
    exec (.start abc) (doneWith upTo3f) = .next ((doneWith upTo3f).beginMessage abc) ∧
    runSteps 0 (State.reset.beginMessage abc) = .next (State.reset.beginMessage abc) ∧
    runSteps 0 ((doneWith upTo3f).beginMessage abc) = .next ((doneWith upTo3f).beginMessage abc) :=
  ⟨rfl, rfl, rfl, rfl, rfl, rfl, rfl, rfl⟩

/-- A run that a START tries to interrupt in `PAD`: no restart, and it steps. -/
theorem witness_InterleavingDoesNotChangeResult :
    let s := (hostLine (.command 1 upTo3f) State.reset).beginMessage abc
    Tracks s abc ∧ (∀ k u, k < 1 → runSteps k s = .next u → u.restarts = false) ∧
      runSteps 1 s = .next { s with script := [] } := by
  refine ⟨tracks_started abc _, fun k u hk hu => ?_, rfl⟩
  obtain rfl : k = 0 := by omega
  obtain rfl := Host.Outcome.next.inj hu
  rfl

theorem witness_RunTakesExactlyItsSteps :
    let s := (hostLine (.command 1 upTo3f) State.reset).beginMessage abc
    Tracks s abc ∧ s.phase = Phase.pad ∧ (∀ k u, k < 1 → runSteps k s = .next u → u.restarts = false) ∧
      runSteps 1 s = .next { s with script := [] } ∧ coreStepsIn 1 s = 0 ∧ coreStepsIn 1 { s with script := [] } = 1 :=
  ⟨tracks_started abc _, rfl, witness_InterleavingDoesNotChangeResult.2.1, rfl, rfl, rfl⟩

theorem witness_HashReturnsSha256 : messageFits (hostLine (.hash abc) State.reset).maxMsgBytes abc = true ∧
    (hostLine (.hash abc) State.reset).phase = Phase.idle ∧
    (hostLine (.hash abc) State.reset).script = .event (.hash abc) :: [] ∧
    (hostLine (.hash []) (doneWith abc)).phase = Phase.done ∧
    (hostLine (.hash []) (doneWith abc)).script = .event (.hash []) :: [] := ⟨rfl, rfl, rfl, rfl, rfl⟩

end Sys2Proof.Tests
end

section
/-! What an event of the host and a step of the core leave of the message and of `MAX_MSG_BYTES`, and the
obligations of spec/00_scope.md: the word primitives (R7) and the bound on the message length (R9, R10, R105). -/

namespace Sys2Proof.Machine

/-! ### Word primitives (R7) -/

theorem toNat_add32 (x y : Word) : (add32 x y).toNat = (x.toNat + y.toNat) % 2 ^ 32 := BitVec.toNat_add x y

/-- Below the width, the two shifts of R7 are the library's rotation. -/
theorem rotr_eq_rotateRight (x : Word) {n : Nat} (h : n < 32) : rotr x n = x.rotateRight n :=
  (BitVec.rotateRight_eq_rotateRightAux_of_lt h).symm

/-- Bit `i` of a rotated word is the bit `n` places higher, around the word's end. -/
theorem getLsbD_rotr (x : Word) {n i : Nat} (h : n < 32) (hi : i < 32) :
    (rotr x n).getLsbD i = x.getLsbD ((i + n) % 32) := by
  rw [rotr_eq_rotateRight x h, BitVec.getLsbD_rotateRight, Nat.mod_eq_of_lt h]
  by_cases hw : i < 32 - n
  · rw [Nat.mod_eq_of_lt (by omega)]
    simp [hw, Nat.add_comm n i]
  · rw [show (i + n) % 32 = i - (32 - n) by omega]
    simp [hw, hi]

theorem toNat_shr (x : Word) (n : Nat) : (shr x n).toNat = x.toNat / 2 ^ n := by
  rw [shr, BitVec.toNat_ushiftRight, Nat.shiftRight_eq_div_pow]

/-- The exclusive or with all ones is the complement. -/
theorem not32_eq_not (x : Word) : not32 x = ~~~x := BitVec.xor_allOnes

theorem toNat_not32 (x : Word) : (not32 x).toNat = 0xFFFFFFFF - x.toNat := by
  rw [not32_eq_not, BitVec.toNat_not]

/-- Settles O11: each primitive by its own lemma above. -/
theorem wordPrimitives : Obligations.WordPrimitives :=
  ⟨toNat_add32,
    fun x _ _ h => ⟨rotr_eq_rotateRight x h, fun _ => getLsbD_rotr x h⟩,
    fun x n _ _ => toNat_shr x n,
    toNat_not32⟩

/-! ### What one step can do to the message -/

/-- Two states with the same core agree on the parameter, the message and the phase. -/
theorem message_of_sameCore {s t : State} (h : s.sameCore t) :
    t.maxMsgBytes = s.maxMsgBytes ∧ t.msg = s.msg ∧ t.msgLen = s.msgLen ∧ t.phase = s.phase := by
  unfold State.sameCore at h
  rw [← h]
  exact ⟨rfl, rfl, rfl, rfl⟩

theorem sameCore_replyDigest (s : State) : s.sameCore s.replyDigest := by
  unfold State.replyDigest
  split <;> rfl

theorem sameCore_replyHex (s : State) : s.sameCore s.replyHex := by
  unfold State.replyHex
  split <;> rfl

/-- A write to `CMD` asks for one of the four commands of R58. -/
theorem decodeCommand_cases (bus : Nat) (m : List Byte) :
    decodeCommand bus m = .nop ∨ decodeCommand bus m = .start m ∨ decodeCommand bus m = .reset ∨
      decodeCommand bus m = .rsvd := by
  unfold decodeCommand
  dsimp only
  split_ifs <;> simp

/-- The operations the host can ask for. -/
theorem decodeHost_cases (e : HostEvent) :
    decodeHost e = .reset ∨ (∃ m, decodeHost e = .start m) ∨ decodeHost e = .nop ∨ decodeHost e = .rsvd ∨
      decodeHost e = .rdstatus ∨ decodeHost e = .rddigest ∨ decodeHost e = .rdhex ∨ ∃ m, decodeHost e = .hash m := by
  match e with
  | .command bus m =>
    rcases decodeCommand_cases bus m with h | h | h | h <;> simp [decodeHost, h]
  | .resetInput _ => exact .inl rfl
  | .read .status => simp [decodeHost]
  | .read .digest => simp [decodeHost]
  | .read .hex => simp [decodeHost]
  | .hash m => simp [decodeHost]

/-- Everything an event of the host that goes on can do: reset the core, begin a message, or leave the core alone. -/
theorem exec_decodeHost_next {e : HostEvent} {s t : State} (h : exec (decodeHost e) s = .next t) :
    (decodeHost e = .reset ∧ t = s.resetTo) ∨
    (∃ m, decodeHost e = .start m ∧ messageFits s.maxMsgBytes m = true ∧ s.quiet = true ∧ t = s.beginMessage m) ∨
    s.sameCore t := by
  rcases decodeHost_cases e with he | ⟨m, he⟩ | he | he | he | he | he | ⟨m, he⟩ <;> rw [he] at h
  · exact .inl ⟨he, (Host.Outcome.next.inj h).symm⟩
  · obtain ⟨hfits, ⟨hquiet, ht⟩ | ⟨-, rfl⟩⟩ := exec_start_next h
    · exact .inr (.inl ⟨m, he, hfits, hquiet, ht⟩)
    · exact .inr (.inr rfl)
  all_goals
    obtain rfl := Host.Outcome.next.inj h
    refine .inr (.inr ?_)
  exacts [rfl, rfl, rfl, sameCore_replyDigest s, sameCore_replyHex s, rfl]

/-- The core's own step neither writes the parameter nor the message, and starts nothing in `IDLE` (R10, R132). -/
theorem coreStep_keeps_message {s t : State} (h : coreStep s = .next t) :
    t.maxMsgBytes = s.maxMsgBytes ∧ t.msg = s.msg ∧ t.msgLen = s.msgLen ∧ (s.phase = Phase.idle → t.phase = Phase.idle) := by
  have hidle : s.phase = Phase.idle → t.phase = Phase.idle := by
    intro hp
    rw [coreStep_of_not_busy (by rw [hp]; rfl)] at h
    obtain rfl := Host.Outcome.next.inj h
    exact hp
  rcases coreStep_cases s with ⟨-, hs⟩ | ⟨-, hs⟩ | ⟨-, hs⟩ | ⟨-, hs⟩ | ⟨-, hs⟩ | ⟨-, hs⟩ | ⟨-, hs⟩ | ⟨-, hs⟩ <;>
    (obtain rfl := Host.Outcome.next.inj (hs.symm.trans h); exact ⟨rfl, rfl, rfl, hidle⟩)

/-- Everything a step can do to the parameter, the message and its length: the parameter is fixed (R9), and the message is
kept, or lost to `IDLE`, or replaced by one that fits (R105, R106). -/
theorem step_message_cases {s t : State} (h : step s = .next t) :
    t.maxMsgBytes = s.maxMsgBytes ∧
    (t.msg = s.msg ∧ t.msgLen = s.msgLen ∧ (s.phase = Phase.idle → t.phase = Phase.idle) ∨
      t.phase = Phase.idle ∨
      ∃ m, messageFits s.maxMsgBytes m = true ∧ t.holdsMessage m) := by
  rcases step_cases s with ⟨e, rest, -, hs⟩ | ⟨l, hs⟩ | ⟨l, hs⟩ <;> rw [hs] at h
  · obtain ⟨-, rfl⟩ | ⟨m, -, hfits, -, rfl⟩ | hcore := exec_decodeHost_next h
    · exact ⟨rfl, .inr (.inl rfl)⟩
    · exact ⟨rfl, .inr (.inr ⟨m, hfits, rfl, rfl⟩)⟩
    · obtain ⟨hbound, hmsg, hlen, hphase⟩ := message_of_sameCore hcore
      exact ⟨hbound, .inl ⟨hmsg, hlen, hphase.trans⟩⟩
  · obtain ⟨hbound, hmessage⟩ := coreStep_keeps_message h
    exact ⟨hbound, .inl hmessage⟩
  · obtain rfl := Host.Outcome.next.inj h
    exact ⟨rfl, .inl ⟨rfl, rfl, id⟩⟩

/-! ### The bound on the message length (R105) -/

theorem messageFits_iff (bound : Option Nat) (m : List Byte) :
    messageFits bound m = true ↔ ∀ b, bound = some b → m.length ≤ b := by
  cases bound <;> simp [messageFits]

/-- A message that can be offered stays within the bound once the core holds it. -/
theorem lengthFits_of_holdsMessage {s : State} {m : List Byte} (h : s.holdsMessage m)
    (hfits : messageFits s.maxMsgBytes m = true) : s.lengthFits := by
  intro b hb
  rw [h.2]
  exact (messageFits_iff _ m).mp hfits b hb

theorem lengthFits_congr {s t : State} (hbound : t.maxMsgBytes = s.maxMsgBytes) (hlen : t.msgLen = s.msgLen) :
    t.lengthFits ↔ s.lengthFits := by
  simp only [State.lengthFits, hbound, hlen]

theorem step_keeps_lengthFits {s t : State} (h : step s = .next t) (hinv : s.phase = Phase.idle ∨ s.lengthFits) :
    t.phase = Phase.idle ∨ t.lengthFits := by
  obtain ⟨hbound, ⟨-, hlen, hidle⟩ | hidle | ⟨m, hfits, hm⟩⟩ := step_message_cases h
  · exact hinv.imp hidle (lengthFits_congr hbound hlen).mpr
  · exact .inl hidle
  · exact .inr (lengthFits_of_holdsMessage hm (hbound ▸ hfits))

/-- Settles O36: from the list of what a step can do to the message. -/
theorem boundIsFixedAndKept : Obligations.BoundIsFixedAndKept :=
  ⟨fun _ _ h => (step_message_cases h).1, fun _ _ hinv h => step_keeps_lengthFits h hinv⟩

end Sys2Proof.Machine
end

section
/-! The range invariants of R27 along every step, what a step that does not restart the core leaves alone, and the
obligations of spec/10_state.md. -/

namespace Sys2Proof.Machine

/-! ### What one step can do -/

theorem sameCore_withScript (s : State) (l : List ScriptLine) : s.sameCore (s.withScript l) := rfl

/-- Two states with the same core show the same digest, in the same phase. -/
theorem output_of_sameCore {s t : State} (h : s.sameCore t) :
    t.digest = s.digest ∧ t.hex = s.hex ∧ t.phase = s.phase := by
  unfold State.sameCore at h
  rw [← h]
  exact ⟨rfl, rfl, rfl⟩

theorem restarts_of_reset {s : State} {e : HostEvent} {rest : List ScriptLine} (h : s.script = .event e :: rest)
    (he : decodeHost e = .reset) : s.restarts = true := by
  simp [State.restarts, h, he]

theorem restarts_of_start {s : State} {e : HostEvent} {rest : List ScriptLine} {m : List Byte}
    (h : s.script = .event e :: rest) (he : decodeHost e = .start m) (hq : s.quiet = true) : s.restarts = true := by
  simp [State.restarts, h, he, hq]

/-- Everything a step that goes on can be: a RESET, an effective START, a move that leaves the core alone, or the core's
own step. The first two are the moves that restart the core. -/
theorem step_next_cases {s t : State} (h : step s = .next t) :
    (s.restarts = true ∧ ∃ rest, t = (s.withScript rest).resetTo) ∨
    (s.restarts = true ∧ ∃ rest m, t = (s.withScript rest).beginMessage m) ∨
    s.sameCore t ∨ ∃ l, coreStep (s.withScript l) = .next t := by
  rcases step_cases s with ⟨e, rest, hscript, hs⟩ | ⟨l, hs⟩ | ⟨l, hs⟩ <;> rw [hs] at h
  · obtain ⟨he, rfl⟩ | ⟨m, he, -, hq, rfl⟩ | hcore := exec_decodeHost_next h
    · exact .inl ⟨restarts_of_reset hscript he, rest, rfl⟩
    · exact .inr (.inl ⟨restarts_of_start hscript he hq, rest, m, rfl⟩)
    · exact .inr (.inr (.inl hcore))
  · exact .inr (.inr (.inr ⟨l, h⟩))
  · obtain rfl := Host.Outcome.next.inj h
    exact .inr (.inr (.inl rfl))

/-- A step that does not restart the core leaves it alone or is its own (R111). -/
theorem step_next_of_not_restarts {s t : State} (h : step s = .next t) (hr : s.restarts = false) :
    s.sameCore t ∨ ∃ l, coreStep (s.withScript l) = .next t := by
  rcases step_next_cases h with ⟨hr', -⟩ | ⟨hr', -⟩ | hcases
  · simp [hr] at hr'
  · simp [hr] at hr'
  · exact hcases

/-- What every step keeps holds of every state a run reaches. -/
theorem runSteps_keeps {P : State → Prop} (hstep : ∀ s t, P s → step s = .next t → P t) {n : Nat} {s t : State}
    (hs : P s) (h : runSteps n s = .next t) : P t := by
  induction n generalizing s with
  | zero =>
    obtain rfl := Host.Outcome.next.inj h
    exact hs
  | succ n ih =>
    rw [runSteps] at h
    cases hu : step s with
    | next u => rw [hu] at h; exact ih (hstep s u hs hu) h
    | fault r => rw [hu] at h; cases h
    | refused r => rw [hu] at h; cases h

/-! ### Building the range invariants, phase by phase (R27) -/

/-- What the range invariants say of a state with a block in work: the field `RangeInvariant.inBlock`. -/
def State.blockInWork (s : State) : Prop :=
  s.blk < s.nblk ∧ 1 ≤ s.nblk ∧ s.pmem.length = 64 * s.nblk ∧ ∃ m, s.holdsMessage m ∧ s.pmem = Memory.ofBytes (pad m)

theorem RangeInvariant.blockInWork {s : State} (hr : RangeInvariant s) (hp : phaseInBlock s.phase = true) :
    s.blockInWork := hr.inBlock hp

/-- In `IDLE` the range invariants say nothing of the other elements. -/
theorem rangeInvariant_of_idle {s : State} (hp : s.phase = Phase.idle) : RangeInvariant s := by
  constructor <;> simp +decide [hp, State.busy]

theorem rangeInvariant_of_pad {s : State} (hp : s.phase = Phase.pad) (hm : ∃ m, s.holdsMessage m) (hb : s.blk = 0) :
    RangeInvariant s := by
  constructor <;> simp +decide [hp, hm, hb]

/-- `T` goes with the phase of a block in work; in `LOAD` it is not used. -/
def State.counterInRange (s : State) : Prop :=
  s.phase = Phase.load ∨ (s.phase = Phase.expand ∧ 16 ≤ s.t.toNat ∧ s.t.toNat ≤ 63) ∨
    (s.phase = Phase.initv ∧ s.t = 64#7) ∨ (s.phase = Phase.round ∧ s.t.toNat ≤ 63) ∨
    (s.phase = Phase.accum ∧ s.t = 64#7)

theorem rangeInvariant_of_blockInWork {s : State} (hb : s.blockInWork) (ht : s.counterInRange) : RangeInvariant s := by
  have hm : ∃ m, s.holdsMessage m := let ⟨_, _, _, m, hm, _⟩ := hb; ⟨m, hm⟩
  rcases ht with hp | ⟨hp, ht⟩ | ⟨hp, ht⟩ | ⟨hp, ht⟩ | ⟨hp, ht⟩ <;>
    exact { legal := by rw [hp]; rfl
            message := fun _ => hm
            inBlock := fun _ => hb
            first := by simp +decide [hp]
            expand := by simp +decide [*]
            round := by simp +decide [*]
            between := by simp +decide [*]
            finished := by simp +decide [hp] }

theorem rangeInvariant_of_format {s : State} (hp : s.phase = Phase.format) (hm : ∃ m, s.holdsMessage m)
    (hb : s.blk = s.nblk) : RangeInvariant s := by
  constructor <;> simp +decide [hp, hm, hb]

theorem rangeInvariant_of_done {s : State} (hp : s.phase = Phase.done) (hb : s.blk = s.nblk) : RangeInvariant s := by
  constructor <;> simp +decide [hp, hb, State.busy]

/-- The range invariants speak of the core alone. -/
theorem rangeInvariant_of_sameCore {s t : State} (h : s.sameCore t) (hr : RangeInvariant s) : RangeInvariant t := by
  unfold State.sameCore at h
  rw [← h]
  exact ⟨hr.legal, hr.message, hr.first, hr.inBlock, hr.expand, hr.round, hr.between, hr.finished⟩

/-! ### Each operation of the core keeps the range invariants -/

/-- The bytes of a padded message fill its blocks (R70, R71). -/
theorem length_pad_eq_blockCount (m : List Byte) : (pad m).length = 64 * blockCount m.length := by
  rw [length_pad, blockCount_mul]

theorem succ_t_of_last {t : BitVec 7} (h : t = 63#7) : t + 1#7 = 64#7 := by rw [h]; rfl

/-- Before its last value `T` counts up within its range. -/
theorem succ_t_of_not_last {t : BitVec 7} (h : t.toNat ≤ 63) (hne : t ≠ 63#7) :
    t.toNat ≤ (t + 1#7).toNat ∧ (t + 1#7).toNat ≤ 63 := by
  bv_omega

theorem exec_pad_keeps_range {s t : State} (hr : RangeInvariant s) (hp : s.phase = Phase.pad)
    (h : exec .pad s = .next t) : RangeInvariant t := by
  obtain rfl := Host.Outcome.next.inj h
  obtain ⟨m, hmsg, hlen⟩ := hr.message (by rw [State.busy, hp]; rfl)
  have hpos : 0 < blockCount s.msgLen := blockCount_pos _
  have hbytes : s.msgBytes = m := State.msgBytes_of_msg hmsg hlen
  refine rangeInvariant_of_blockInWork ⟨?_, hpos, ?_, m, ⟨hmsg, hlen⟩, ?_⟩ (.inl rfl)
  · simpa [hr.first hp] using hpos
  · simp [hbytes, hlen, length_pad_eq_blockCount]
  · simp [hbytes]

theorem exec_load_keeps_range {s t : State} (hr : RangeInvariant s) (hp : s.phase = Phase.load)
    (h : exec .load s = .next t) : RangeInvariant t := by
  obtain rfl := Host.Outcome.next.inj h
  exact rangeInvariant_of_blockInWork (hr.blockInWork (by rw [hp]; rfl)) (.inr (.inl ⟨rfl, by simp, by simp⟩))

theorem exec_expand_keeps_range {s t : State} (hr : RangeInvariant s) (hp : s.phase = Phase.expand)
    (h : exec .expand s = .next t) : RangeInvariant t := by
  obtain rfl := Host.Outcome.next.inj h
  have hb : s.blockInWork := hr.blockInWork (by rw [hp]; rfl)
  obtain ⟨hlow, hhigh⟩ := hr.expand hp
  refine rangeInvariant_of_blockInWork hb ?_
  by_cases ht : s.t = 63#7
  · exact .inr (.inr (.inl ⟨if_pos ht, succ_t_of_last ht⟩))
  · obtain ⟨hrises, hmax⟩ := succ_t_of_not_last hhigh ht
    exact .inr (.inl ⟨if_neg ht, hlow.trans hrises, hmax⟩)

theorem exec_initv_keeps_range {s t : State} (hr : RangeInvariant s) (hp : s.phase = Phase.initv)
    (h : exec .initv s = .next t) : RangeInvariant t := by
  obtain rfl := Host.Outcome.next.inj h
  exact rangeInvariant_of_blockInWork (hr.blockInWork (by rw [hp]; rfl)) (.inr (.inr (.inr (.inl ⟨rfl, by simp⟩))))

theorem exec_round_keeps_range {s t : State} (hr : RangeInvariant s) (hp : s.phase = Phase.round)
    (h : exec .round s = .next t) : RangeInvariant t := by
  obtain rfl := Host.Outcome.next.inj h
  have hb : s.blockInWork := hr.blockInWork (by rw [hp]; rfl)
  refine rangeInvariant_of_blockInWork hb ?_
  by_cases ht : s.t = 63#7
  · exact .inr (.inr (.inr (.inr ⟨if_pos ht, succ_t_of_last ht⟩)))
  · obtain ⟨-, hmax⟩ := succ_t_of_not_last (hr.round hp) ht
    exact .inr (.inr (.inr (.inl ⟨if_neg ht, hmax⟩)))

theorem exec_accum_keeps_range {s t : State} (hr : RangeInvariant s) (hp : s.phase = Phase.accum)
    (h : exec .accum s = .next t) : RangeInvariant t := by
  obtain rfl := Host.Outcome.next.inj h
  obtain ⟨hlt, hpos, hlen, m, hm, hpad⟩ := hr.blockInWork (by rw [hp]; rfl)
  by_cases hlast : s.blk + 1 = s.nblk
  · exact rangeInvariant_of_format (if_pos hlast) ⟨m, hm⟩ hlast
  · have hnext : s.blk + 1 < s.nblk := by omega
    exact rangeInvariant_of_blockInWork ⟨hnext, hpos, hlen, m, hm, hpad⟩ (.inl (if_neg hlast))

theorem exec_format_keeps_range {s t : State} (hr : RangeInvariant s) (hp : s.phase = Phase.format)
    (h : exec .format s = .next t) : RangeInvariant t := by
  obtain rfl := Host.Outcome.next.inj h
  exact rangeInvariant_of_done rfl (hr.finished (.inl hp))

theorem coreStep_keeps_range {s t : State} (hr : RangeInvariant s) (h : coreStep s = .next t) : RangeInvariant t := by
  rcases coreStep_cases s with ⟨hp, hs⟩ | ⟨hp, hs⟩ | ⟨hp, hs⟩ | ⟨hp, hs⟩ | ⟨hp, hs⟩ | ⟨hp, hs⟩ | ⟨hp, hs⟩ | ⟨-, hs⟩ <;>
    rw [hs] at h
  · exact exec_pad_keeps_range hr hp h
  · exact exec_load_keeps_range hr hp h
  · exact exec_expand_keeps_range hr hp h
  · exact exec_initv_keeps_range hr hp h
  · exact exec_round_keeps_range hr hp h
  · exact exec_accum_keeps_range hr hp h
  · exact exec_format_keeps_range hr hp h
  · obtain rfl := Host.Outcome.next.inj h
    exact hr

theorem step_keeps_range {s t : State} (hr : RangeInvariant s) (h : step s = .next t) : RangeInvariant t := by
  rcases step_next_cases h with ⟨-, rest, rfl⟩ | ⟨-, rest, m, rfl⟩ | hcore | ⟨l, hl⟩
  · exact rangeInvariant_of_idle rfl
  · exact rangeInvariant_of_pad rfl ⟨m, rfl, rfl⟩ rfl
  · exact rangeInvariant_of_sameCore hcore hr
  · exact coreStep_keeps_range (rangeInvariant_of_sameCore (sameCore_withScript s l) hr) hl

/-- Settles O51: a RESET leads to `IDLE`, where the invariants hold, and each kind of step keeps them. -/
theorem rangeInvariantIsKept : Obligations.RangeInvariantIsKept := by
  refine ⟨fun _ _ => step_keeps_range, fun s s' t n hreset hrun => ?_⟩
  obtain rfl := Host.Outcome.next.inj hreset
  exact runSteps_keeps (fun _ _ => step_keeps_range) (rangeInvariant_of_idle (State.resetTo_phase s)) hrun

/-! ### What a step that does not restart the core leaves alone -/

/-- FORMAT alone of the core's operations writes `DIGEST` and `HEX`, and a core in `DONE` has no step (R18, R145). -/
theorem coreStep_keeps_output {s t : State} (h : coreStep s = .next t) :
    (s.phase ≠ Phase.format → t.digest = s.digest ∧ t.hex = s.hex) ∧ (s.phase = Phase.done → t.phase = Phase.done) := by
  have hdone : s.phase = Phase.done → t.phase = Phase.done := by
    intro hp
    rw [coreStep_of_not_busy (by rw [hp]; rfl)] at h
    obtain rfl := Host.Outcome.next.inj h
    exact hp
  refine ⟨fun hformat => ?_, hdone⟩
  rcases coreStep_cases s with ⟨-, hs⟩ | ⟨-, hs⟩ | ⟨-, hs⟩ | ⟨-, hs⟩ | ⟨-, hs⟩ | ⟨-, hs⟩ | ⟨hp, -⟩ | ⟨-, hs⟩
  pick_goal 7
  · exact absurd hp hformat
  all_goals
    obtain rfl := Host.Outcome.next.inj (hs.symm.trans h)
    exact ⟨rfl, rfl⟩

/-- Settles O46: a step that does not restart the core leaves it alone or is its own, and the core's own is
`coreStep_keeps_output`. -/
theorem outputIsWrittenOnlyByFormat : Obligations.OutputIsWrittenOnlyByFormat := by
  intro s t h hr
  rcases step_next_of_not_restarts h hr with hcore | ⟨l, hl⟩
  · obtain ⟨hdigest, hhex, hphase⟩ := output_of_sameCore hcore
    exact ⟨fun _ => ⟨hdigest, hhex⟩, hphase.trans⟩
  · simpa using coreStep_keeps_output hl

/-- Settles O47: neither a move that leaves the core alone nor the core's own step writes the message. -/
theorem messageIsImmutable : Obligations.MessageIsImmutable := by
  intro s t h hr
  rcases step_next_of_not_restarts h hr with hcore | ⟨l, hl⟩
  · obtain ⟨-, hmsg, hlen, -⟩ := message_of_sameCore hcore
    exact ⟨hmsg, hlen⟩
  · obtain ⟨-, hmsg, hlen, -⟩ := coreStep_keeps_message hl
    exact ⟨hmsg, hlen⟩

/-! ### Every element read is there (R28, R33) -/

theorem msg_read?_of_holdsMessage {s : State} {m : List Byte} (h : s.holdsMessage m) {j : Nat} (hj : j < s.msgLen) :
    s.msg.read? j = some (s.msgByte j) := by
  obtain ⟨hmsg, hlen⟩ := h
  rw [hlen] at hj
  simp [State.msgByte, hmsg, hj]

/-- The block in work lies within the padded message. -/
theorem pmem_read?_of_blockInWork {s : State} (h : s.blockInWork) {j : Nat} (hj : j < 64) :
    s.pmem.read? (64 * s.blk + j) = some (s.pmemByte (64 * s.blk + j)) := by
  obtain ⟨hlt, -, hlen, m, -, hpad⟩ := h
  have hin : 64 * s.blk + j < (pad m).length := by
    rw [hpad, Memory.length_ofBytes] at hlen
    omega
  simp [State.pmemByte, hpad, hin]

theorem w_getElem?_eq_schedule {s : State} {d : Nat} (hd : d ≤ s.t.toNat) (ht : s.t.toNat ≤ 63) :
    s.w[s.t.toNat - d]? = some (s.schedule d) := by
  have hin : s.t.toNat - d < 64 := by omega
  simp [State.schedule, hd, hin]

theorem romK_getElem?_eq_roundConst {s : State} (ht : s.t.toNat ≤ 63) : romK[s.t.toNat]? = some s.roundConst := by
  have hin : s.t.toNat < romK.length := by rw [length_romK]; omega
  rw [State.roundConst, List.getElem?_eq_getElem hin, Option.getD_some]

/-- Settles O52: in each of the four phases that read, the range invariants put the index in range. -/
theorem noAbsentElementIsRead : Obligations.NoAbsentElementIsRead := by
  intro s hr
  refine ⟨fun hp j hj => ?_, fun hp j hj => ?_, fun hp d hd => ?_, fun hp => ?_⟩
  · obtain ⟨m, hm⟩ := hr.message (by rw [State.busy, hp]; rfl)
    exact msg_read?_of_holdsMessage hm hj
  · exact pmem_read?_of_blockInWork (hr.blockInWork (by rw [hp]; rfl)) hj
  · obtain ⟨hlow, hhigh⟩ := hr.expand hp
    have hd16 : d ≤ 16 := by
      simp only [List.mem_cons, List.not_mem_nil, or_false] at hd
      omega
    have hdt : d ≤ s.t.toNat := hd16.trans hlow
    exact ⟨hdt, w_getElem?_eq_schedule hdt hhigh⟩
  · exact ⟨w_getElem?_eq_schedule (Nat.zero_le _) (hr.round hp), romK_getElem?_eq_roundConst (hr.round hp)⟩

/-! ### One step, and the state after reset -/

/-- Settles O5: an event line by `step_of_script_event`, the core's turn by `coreStep_of_decode`. -/
theorem stepRunsDecodedOperation : Obligations.StepRunsDecodedOperation := by
  refine ⟨fun s e rest i hscript hdecode => ?_, fun s i hscript hdecode => ?_⟩
  · obtain rfl : decodeHost e = i := Except.ok.inj hdecode
    exact step_of_script_event hscript
  · rw [step_of_script_nil hscript]
    exact coreStep_of_decode hdecode

theorem statusOf_idle : statusOf Phase.idle = 0x00#8 := by decide

/-- Settles O48: the fields of `State.resetFor`, and the flags of `IDLE`. -/
theorem resetStateIsIdle : Obligations.ResetStateIsIdle :=
  ⟨fun _ => ⟨rfl, statusOf_idle, rfl, rfl, rfl, rfl, rfl, rfl⟩, rfl⟩

/-- Settles O49: in `IDLE` the invariants ask nothing, and an empty store is in canonical form. -/
theorem invariantsHoldAtReset : Obligations.InvariantsHoldAtReset :=
  fun _ => ⟨rangeInvariant_of_idle rfl, .inl rfl, .nil, .nil⟩

end Sys2Proof.Machine
end

section
/-! The order of the phases (R16, R35, R143 to R145), the canonical form of the byte stores, and the obligations of
spec/20_memory.md. -/

namespace Sys2Proof.Machine

/-! ### The canonical form of the byte stores -/

theorem pmem_of_sameCore {s t : State} (h : s.sameCore t) : t.pmem = s.pmem := by
  unfold State.sameCore at h
  rw [← h]

/-- PAD alone of the core's operations writes `PMEM`, as a whole (R11, R71). -/
theorem coreStep_pmem_cases {s t : State} (h : coreStep s = .next t) :
    t.pmem = s.pmem ∨ t.pmem = Memory.ofBytes (pad s.msgBytes) := by
  rcases coreStep_cases s with ⟨-, hs⟩ | ⟨-, hs⟩ | ⟨-, hs⟩ | ⟨-, hs⟩ | ⟨-, hs⟩ | ⟨-, hs⟩ | ⟨-, hs⟩ | ⟨-, hs⟩ <;>
    obtain rfl := Host.Outcome.next.inj (hs.symm.trans h)
  · exact .inr rfl
  all_goals exact .inl rfl

theorem coreStep_keeps_wf {s t : State} (hmsg : s.msg.wf) (hpmem : s.pmem.wf) (h : coreStep s = .next t) :
    t.msg.wf ∧ t.pmem.wf := by
  obtain ⟨-, hkept, -⟩ := coreStep_keeps_message h
  refine ⟨hkept ▸ hmsg, ?_⟩
  rcases coreStep_pmem_cases h with hp | hp <;> rw [hp]
  · exact hpmem
  · exact Memory.wf_ofBytes _

/-- Settles O50: whatever writes a store assigns it a whole byte sequence, and such a store is in canonical form
(`Memory.wf_ofBytes`). -/
theorem storesStayCanonical : Obligations.StoresStayCanonical := by
  intro s t hmsg hpmem h
  rcases step_next_cases h with ⟨-, rest, rfl⟩ | ⟨-, rest, m, rfl⟩ | hcore | ⟨l, hl⟩
  · exact ⟨Memory.wf_ofBytes _, Memory.wf_ofBytes _⟩
  · exact ⟨Memory.wf_ofBytes _, hpmem⟩
  · obtain ⟨-, hkept, -⟩ := message_of_sameCore hcore
    exact ⟨hkept ▸ hmsg, pmem_of_sameCore hcore ▸ hpmem⟩
  · exact coreStep_keeps_wf (s := s.withScript l) hmsg hpmem hl

/-! ### The order of the phases (R16, R35) -/

/-- The core's own step out of `s` enters the phase `p`: one line per arrow of R16, with the end of the loop where there
is one. -/
def State.sequencerEnters (s : State) (p : BitVec 4) : Prop :=
  (s.phase = Phase.pad ∧ p = Phase.load) ∨
  (s.phase = Phase.load ∧ p = Phase.expand) ∨
  ((s.phase = Phase.expand ∧ s.t = 63#7) ∧ p = Phase.initv) ∨
  (s.phase = Phase.initv ∧ p = Phase.round) ∨
  ((s.phase = Phase.round ∧ s.t = 63#7) ∧ p = Phase.accum) ∨
  ((s.phase = Phase.accum ∧ s.blk + 1 = s.nblk) ∧ p = Phase.format) ∨
  ((s.phase = Phase.accum ∧ s.blk + 1 ≠ s.nblk) ∧ p = Phase.load) ∨
  (s.phase = Phase.format ∧ p = Phase.done)

/-- EXPAND leaves its phase only after the last schedule word (R86). -/
theorem afterExpand_of_ne {t : BitVec 7} (h : afterExpand t ≠ Phase.expand) :
    t = 63#7 ∧ afterExpand t = Phase.initv := by
  by_cases ht : t = 63#7
  · exact ⟨ht, if_pos ht⟩
  · exact absurd (if_neg ht) h

/-- ROUND leaves its phase only after the last round (R93). -/
theorem afterRound_of_ne {t : BitVec 7} (h : afterRound t ≠ Phase.round) : t = 63#7 ∧ afterRound t = Phase.accum := by
  by_cases ht : t = 63#7
  · exact ⟨ht, if_pos ht⟩
  · exact absurd (if_neg ht) h

theorem afterAccum_cases (blk nblk : Nat) :
    (blk + 1 = nblk ∧ afterAccum blk nblk = Phase.format) ∨ (blk + 1 ≠ nblk ∧ afterAccum blk nblk = Phase.load) := by
  by_cases h : blk + 1 = nblk
  · exact .inl ⟨h, if_pos h⟩
  · exact .inr ⟨h, if_neg h⟩

theorem coreStep_enters {s t : State} (h : coreStep s = .next t) (hne : t.phase ≠ s.phase) :
    s.sequencerEnters t.phase := by
  rcases coreStep_cases s with ⟨hp, hs⟩ | ⟨hp, hs⟩ | ⟨hp, hs⟩ | ⟨hp, hs⟩ | ⟨hp, hs⟩ | ⟨hp, hs⟩ | ⟨hp, hs⟩ | ⟨-, hs⟩ <;>
    obtain rfl := Host.Outcome.next.inj (hs.symm.trans h)
  · exact .inl ⟨hp, rfl⟩
  · exact .inr (.inl ⟨hp, rfl⟩)
  · obtain ⟨ht, hnext⟩ := afterExpand_of_ne (hp ▸ hne)
    exact .inr (.inr (.inl ⟨⟨hp, ht⟩, hnext⟩))
  · exact .inr (.inr (.inr (.inl ⟨hp, rfl⟩)))
  · obtain ⟨ht, hnext⟩ := afterRound_of_ne (hp ▸ hne)
    exact .inr (.inr (.inr (.inr (.inl ⟨⟨hp, ht⟩, hnext⟩))))
  · refine .inr (.inr (.inr (.inr (.inr ?_))))
    rcases afterAccum_cases s.blk s.nblk with ⟨hlast, hnext⟩ | ⟨hmore, hnext⟩
    · exact .inl ⟨⟨hp, hlast⟩, hnext⟩
    · exact .inr (.inl ⟨⟨hp, hmore⟩, hnext⟩)
  · exact .inr (.inr (.inr (.inr (.inr (.inr (.inr ⟨hp, rfl⟩))))))
  · exact absurd rfl hne

/-- Everything a step that changes `PHASE` can be: a RESET, an effective START, or an arrow of R16. -/
theorem step_phase_cases {s t : State} (h : step s = .next t) (hne : t.phase ≠ s.phase) :
    ((∃ e rest, s.script = .event e :: rest ∧ decodeHost e = .reset) ∧ t.phase = Phase.idle) ∨
    ((s.phase = Phase.idle ∨ s.phase = Phase.done) ∧ t.phase = Phase.pad) ∨
    s.sequencerEnters t.phase := by
  rcases step_cases s with ⟨e, rest, hscript, hs⟩ | ⟨l, hs⟩ | ⟨l, hs⟩ <;> rw [hs] at h
  · obtain ⟨he, rfl⟩ | ⟨m, -, -, hquiet, rfl⟩ | hcore := exec_decodeHost_next h
    · exact .inl ⟨⟨e, rest, hscript, he⟩, rfl⟩
    · exact .inr (.inl ⟨(phaseQuiet_iff s.phase).mp hquiet, rfl⟩)
    · obtain ⟨-, -, -, hphase⟩ := message_of_sameCore hcore
      exact absurd hphase hne
  · exact .inr (.inr (coreStep_enters (s := s.withScript l) h hne))
  · obtain rfl := Host.Outcome.next.inj h
    exact absurd rfl hne

/-- Settles O10: each way to change `PHASE` enters one phase, so the eight other entry conditions do not apply. -/
theorem noTransitionIsSkipped : Obligations.NoTransitionIsSkipped := by
  intro s t h hne
  rcases step_phase_cases h hne with ⟨hreset, hto⟩ | ⟨hquiet, hto⟩ | ⟨hfrom, hto⟩ | ⟨hfrom, hto⟩ | ⟨hfrom, hto⟩ |
    ⟨hfrom, hto⟩ | ⟨hfrom, hto⟩ | ⟨hfrom, hto⟩ | ⟨hfrom, hto⟩ | ⟨hfrom, hto⟩
  · simpa +decide [hto] using hreset
  · simpa +decide [hto] using hquiet
  all_goals simp +decide [hfrom, hto]

end Sys2Proof.Machine
end

section
/-! A run of the core by its own steps: the correspondence with the spec's functions is kept (R87, R98) while the number of
steps still to take falls to zero (R111); and with it the obligation on `HASH` (R64). -/

namespace Sys2Proof.Machine

/-! ### Building the correspondence, phase by phase -/

/-- What `Tracks` says of every phase with a block in work: the padded message and the chaining value are there. -/
def State.hashesBlock (s : State) (m : List Byte) : Prop :=
  s.holdsMessage m ∧ s.pmem = Memory.ofBytes (pad m) ∧ s.nblk = blockCount m.length ∧ s.blk < s.nblk ∧
    s.h = chain (pad m) s.blk

/-- How far a block in work has come: `T`, the schedule and the working variables, phase by phase. -/
def State.blockProgress (s : State) (m : List Byte) : Prop :=
  s.phase = Phase.load ∨
  (s.phase = Phase.expand ∧ 16 ≤ s.t.toNat ∧ s.t.toNat ≤ 63 ∧
    ∀ i, i < s.t.toNat → s.w[i]? = (extend (block (pad m) s.blk) (s.t.toNat - 16))[i]?) ∨
  (s.phase = Phase.initv ∧ s.t = 64#7 ∧ s.w.toList = s.blockSchedule m) ∨
  (s.phase = Phase.round ∧ s.t.toNat ≤ 63 ∧ s.w.toList = s.blockSchedule m ∧
    s.vars = roundsUpTo s.h (s.blockSchedule m) s.t.toNat) ∨
  (s.phase = Phase.accum ∧ s.t = 64#7 ∧ s.w.toList = s.blockSchedule m ∧
    s.vars = roundsUpTo s.h (s.blockSchedule m) 64)

section
variable {s t : State} {m : List Byte}

theorem tracks_of_pad (hp : s.phase = Phase.pad) (hm : s.holdsMessage m) (hblk : s.blk = 0) (hh : s.h = romIV) :
    Tracks s m := by
  constructor <;> simp +decide [hp, hm, hblk, hh, State.busy]

theorem phase_of_blockProgress (h : s.blockProgress m) :
    s.phase = Phase.load ∨ s.phase = Phase.expand ∨ s.phase = Phase.initv ∨ s.phase = Phase.round ∨
      s.phase = Phase.accum :=
  h.imp id (.imp And.left (.imp And.left (.imp And.left And.left)))

theorem tracks_of_hashesBlock (hb : s.hashesBlock m) (hprog : s.blockProgress m) : Tracks s m := by
  obtain ⟨hm, hpmem, hnblk, hblk, hh⟩ := hb
  have hphase := phase_of_blockProgress hprog
  exact { legal := .inl ((phaseBusy_iff s.phase).mpr (by tauto))
          message := hm
          padding := fun hp => by simp +decide [hp] at hphase
          padded := fun _ => ⟨hpmem, hnblk⟩
          inBlock := fun _ => ⟨hblk, hh⟩
          expand := fun hp => by simpa +decide [State.blockProgress, hp] using hprog
          initv := fun hp => by simpa +decide [State.blockProgress, hp] using hprog
          round := fun hp => by simpa +decide [State.blockProgress, hp] using hprog
          accum := fun hp => by simpa +decide [State.blockProgress, hp] using hprog
          finished := by rintro (hp | hp) <;> simp +decide [hp] at hphase
          done := fun hp => by simp +decide [hp] at hphase }

theorem tracks_of_format (hp : s.phase = Phase.format) (hm : s.holdsMessage m)
    (hpad : s.pmem = Memory.ofBytes (pad m) ∧ s.nblk = blockCount m.length)
    (hfin : s.blk = s.nblk ∧ s.h = finalHash m) : Tracks s m := by
  constructor <;> simp +decide [hp, hm, hpad, hfin, State.busy]

theorem tracks_of_done (hp : s.phase = Phase.done) (hm : s.holdsMessage m)
    (hpad : s.pmem = Memory.ofBytes (pad m) ∧ s.nblk = blockCount m.length)
    (hfin : s.blk = s.nblk ∧ s.h = finalHash m)
    (hout : s.digest = digestOf (finalHash m) ∧ s.hex = sha256hex m) : Tracks s m := by
  constructor <;> simp +decide [hp, hm, hpad, hfin, hout, State.busy, State.isDone]


/-! ### What the correspondence gives -/

theorem Tracks.hashesBlock (ht : Tracks s m) (hp : phaseInBlock s.phase = true) : s.hashesBlock m := by
  have hne : s.phase ≠ Phase.pad := by
    intro hpad
    rw [hpad] at hp
    exact absurd hp (by decide)
  obtain ⟨hpmem, hnblk⟩ := ht.padded hne
  obtain ⟨hblk, hh⟩ := ht.inBlock hp
  exact ⟨ht.message, hpmem, hnblk, hblk, hh⟩

/-- The range invariants are part of the correspondence (R27). -/
theorem rangeInvariant_of_tracks (ht : Tracks s m) : RangeInvariant s where
  legal := by
    rcases ht.legal with hb | hd
    · simp [phaseLegal, show phaseBusy s.phase = true from hb]
    · simp [phaseLegal, phaseQuiet, (phaseDone_iff s.phase).mp hd]
  message := fun _ => ⟨m, ht.message⟩
  first := fun hp => (ht.padding hp).1
  inBlock := by
    intro hp
    obtain ⟨hm, hpmem, hnblk, hblk, -⟩ := ht.hashesBlock hp
    refine ⟨hblk, by omega, ?_, m, hm, hpmem⟩
    rw [hpmem, Memory.length_ofBytes, length_pad_eq_blockCount, hnblk]
  expand := by
    intro hp
    obtain ⟨hlow, hhigh, -⟩ := ht.expand hp
    exact ⟨hlow, hhigh⟩
  round := fun hp => (ht.round hp).1
  between := by
    rintro (hp | hp)
    · exact (ht.initv hp).1
    · exact (ht.accum hp).1
  finished := fun hp => (ht.finished hp).1

/-! ### The words an operation reads -/

theorem memRead4_congr {f g : Nat → Byte} {addr : Nat} (h : ∀ j, j < 4 → f (addr + j) = g (addr + j)) :
    memRead4 f addr = memRead4 g addr := by
  have h0 : f addr = g addr := h 0 (by decide)
  simp only [memRead4, h0, h 1 (by decide), h 2 (by decide), h 3 (by decide)]

/-- A word of the block in work, as LOAD reads it from `PMEM` (R80, R81). -/
theorem memRead4_pmemByte {p : List Byte} (hpmem : s.pmem = Memory.ofBytes p) (hlen : p.length = 64 * s.nblk)
    (hblk : s.blk < s.nblk) {i : Nat} (hi : i < 16) :
    memRead4 s.pmemByte (64 * s.blk + 4 * i) = blockWord p s.blk i :=
  memRead4_congr fun j hj => State.pmemByte_of_pmem hpmem (by omega)

/-- LOAD fetches the block of the padded message (R81). -/
theorem loadedSchedule_getElem? {p : List Byte} (hpmem : s.pmem = Memory.ofBytes p) (hlen : p.length = 64 * s.nblk)
    (hblk : s.blk < s.nblk) {i : Nat} (hi : i < 16) : s.loadedSchedule[i]? = (block p s.blk)[i]? := by
  have hi64 : i < 64 := by omega
  simp [State.loadedSchedule, block, hi, hi64, memRead4_pmemByte hpmem hlen hblk hi]

/-- A tap of a schedule whose first words are `ws`. -/
theorem schedule_eq_getD {ws : List Word} (hw : ∀ i, i < s.t.toNat → s.w[i]? = ws[i]?) {d : Nat}
    (hd : 0 < d) (hdt : d ≤ s.t.toNat) (ht : s.t.toNat ≤ 63) : s.schedule d = ws.getD (s.t.toNat - d) 0#32 := by
  have hread := w_getElem?_eq_schedule hdt ht
  rw [hw _ (by omega)] at hread
  rw [List.getD_eq_getElem?_getD, hread, Option.getD_some]

/-- EXPAND computes the next word of the schedule (R84, R86). -/
theorem expandWord_eq_nextScheduleWord {ws : List Word} (hlen : ws.length = s.t.toNat)
    (hw : ∀ i, i < s.t.toNat → s.w[i]? = ws[i]?) (hlow : 16 ≤ s.t.toNat) (hhigh : s.t.toNat ≤ 63) :
    s.expandWord = nextScheduleWord ws := by
  have htap : ∀ d, 0 < d → d ≤ 16 → s.schedule d = ws.getD (ws.length - d) 0#32 := fun d hd h16 => by
    rw [hlen]
    exact schedule_eq_getD hw hd (by omega) hhigh
  rw [State.expandWord, nextScheduleWord, htap 2 (by omega) (by omega), htap 7 (by omega) (by omega),
    htap 15 (by omega) (by omega), htap 16 (by omega) (by omega)]

theorem toNat_succ_t {t : BitVec 7} (h : t.toNat ≤ 63) : (t + 1#7).toNat = t.toNat + 1 := by bv_omega

/-- After EXPAND one more word of the schedule is there. -/
theorem expanded_getElem? {blk : List Word} (hblk : blk.length = 16) (hlow : 16 ≤ s.t.toNat) (hhigh : s.t.toNat ≤ 63)
    (hw : ∀ i, i < s.t.toNat → s.w[i]? = (extend blk (s.t.toNat - 16))[i]?) {i : Nat} (hi : i < s.t.toNat + 1) :
    (s.w.setIfInBounds s.t.toNat s.expandWord)[i]? = (extend blk (s.t.toNat + 1 - 16))[i]? := by
  obtain ⟨n, hn⟩ : ∃ n, s.t.toNat = 16 + n := ⟨s.t.toNat - 16, by omega⟩
  have hword : s.expandWord = nextScheduleWord (extend blk n) := by
    refine expandWord_eq_nextScheduleWord (by rw [length_extend, hblk, hn]) (fun j hj => ?_) hlow hhigh
    rw [hw j hj, hn, Nat.add_sub_cancel_left]
  rw [show s.t.toNat + 1 - 16 = n + 1 by omega]
  rcases Nat.lt_succ_iff_lt_or_eq.mp hi with hold | rfl
  · rw [Vector.getElem?_setIfInBounds_ne (by omega), hw i hold, getElem?_extend_succ (by omega), hn,
      Nat.add_sub_cancel_left]
  · rw [Vector.getElem?_setIfInBounds_self_of_lt (by omega), hword, hn, ← hblk, getElem?_extend_last]

theorem toList_eq_expandBlock {v : Vector Word 64} {blk : List Word} (hblk : blk.length = 16)
    (hv : ∀ i, i < 64 → v[i]? = (extend blk 48)[i]?) : v.toList = expandBlock blk := by
  have hlen : (extend blk 48).length = 64 := by rw [length_extend, hblk]
  apply List.ext_getElem?
  intro i
  by_cases hi : i < 64
  · simpa [expandBlock] using hv i hi
  · rw [List.getElem?_eq_none (by simp; omega), expandBlock, List.getElem?_eq_none (by omega)]

theorem roundConst_eq_getD (ht : s.t.toNat ≤ 63) : s.roundConst = romK.getD s.t.toNat 0#32 := by
  rw [List.getD_eq_getElem?_getD, romK_getElem?_eq_roundConst ht, Option.getD_some]

theorem schedule_zero_eq_getD (ht : s.t.toNat ≤ 63) : s.schedule 0 = s.w.toList.getD s.t.toNat 0#32 := by
  have hread := w_getElem?_eq_schedule (Nat.zero_le s.t.toNat) ht
  rw [Nat.sub_zero] at hread
  rw [List.getD_eq_getElem?_getD, Vector.getElem?_toList, hread, Option.getD_some]

/-! ### Each operation of the core keeps the correspondence -/

theorem exec_pad_keeps_tracks (ht : Tracks s m) (hp : s.phase = Phase.pad) (h : exec .pad s = .next t) :
    Tracks t m := by
  obtain rfl := Host.Outcome.next.inj h
  obtain ⟨hmsg, hlen⟩ := ht.message
  obtain ⟨hblk, hh⟩ := ht.padding hp
  have hbytes : s.msgBytes = m := State.msgBytes_of_msg hmsg hlen
  refine tracks_of_hashesBlock ⟨⟨hmsg, hlen⟩, ?_, ?_, ?_, ?_⟩ (.inl rfl)
  · rw [hbytes]
  · rw [hlen]
  · rw [hblk]
    exact blockCount_pos _
  · rw [hh, hblk, chain]

theorem exec_load_keeps_tracks (ht : Tracks s m) (hp : s.phase = Phase.load) (h : exec .load s = .next t) :
    Tracks t m := by
  obtain rfl := Host.Outcome.next.inj h
  obtain ⟨hm, hpmem, hnblk, hblk, hh⟩ := ht.hashesBlock (by rw [hp]; rfl)
  have hlen : (pad m).length = 64 * s.nblk := by rw [length_pad_eq_blockCount, hnblk]
  refine tracks_of_hashesBlock ⟨hm, hpmem, hnblk, hblk, hh⟩ (.inr (.inl ⟨rfl, by simp, by simp, fun i hi => ?_⟩))
  exact loadedSchedule_getElem? hpmem hlen hblk hi

theorem exec_expand_keeps_tracks (ht : Tracks s m) (hp : s.phase = Phase.expand) (h : exec .expand s = .next t) :
    Tracks t m := by
  obtain rfl := Host.Outcome.next.inj h
  obtain ⟨hlow, hhigh, hw⟩ := ht.expand hp
  have hnew := fun i => expanded_getElem? (s := s) (i := i) (length_block _ _) hlow hhigh hw
  refine tracks_of_hashesBlock (ht.hashesBlock (by rw [hp]; rfl)) ?_
  by_cases hlast : s.t = 63#7
  · refine .inr (.inr (.inl ⟨if_pos hlast, succ_t_of_last hlast, ?_⟩))
    rw [hlast] at hnew
    exact toList_eq_expandBlock (length_block _ _) fun i hi => by rw [hlast]; exact hnew i hi
  · obtain ⟨hrises, hmax⟩ := succ_t_of_not_last hhigh hlast
    refine .inr (.inl ⟨if_neg hlast, hlow.trans hrises, hmax, fun i hi => ?_⟩)
    dsimp only at hi ⊢
    rw [toNat_succ_t hhigh] at hi ⊢
    exact hnew i hi

theorem exec_initv_keeps_tracks (ht : Tracks s m) (hp : s.phase = Phase.initv) (h : exec .initv s = .next t) :
    Tracks t m := by
  obtain rfl := Host.Outcome.next.inj h
  obtain ⟨-, hw⟩ := ht.initv hp
  exact tracks_of_hashesBlock (ht.hashesBlock (by rw [hp]; rfl)) (.inr (.inr (.inr (.inl ⟨rfl, by simp, hw, rfl⟩))))

theorem exec_round_keeps_tracks (ht : Tracks s m) (hp : s.phase = Phase.round) (h : exec .round s = .next t) :
    Tracks t m := by
  obtain rfl := Host.Outcome.next.inj h
  obtain ⟨hhigh, hw, hvars⟩ := ht.round hp
  have hnew : roundFn s.vars s.roundConst (s.schedule 0) = roundsUpTo s.h (s.blockSchedule m) (s.t.toNat + 1) := by
    rw [roundsUpTo, ← hvars, ← hw, roundConst_eq_getD hhigh, schedule_zero_eq_getD hhigh]
  refine tracks_of_hashesBlock (ht.hashesBlock (by rw [hp]; rfl)) ?_
  by_cases hlast : s.t = 63#7
  · rw [hlast] at hnew
    exact .inr (.inr (.inr (.inr ⟨if_pos hlast, succ_t_of_last hlast, hw, hnew⟩)))
  · obtain ⟨-, hmax⟩ := succ_t_of_not_last hhigh hlast
    refine .inr (.inr (.inr (.inl ⟨if_neg hlast, hmax, hw, ?_⟩)))
    dsimp only
    rw [toNat_succ_t hhigh]
    exact hnew

theorem exec_accum_keeps_tracks (ht : Tracks s m) (hp : s.phase = Phase.accum) (h : exec .accum s = .next t) :
    Tracks t m := by
  obtain rfl := Host.Outcome.next.inj h
  obtain ⟨-, -, hvars⟩ := ht.accum hp
  obtain ⟨hm, hpmem, hnblk, hblk, hh⟩ := ht.hashesBlock (by rw [hp]; rfl)
  have hnew : addVars s.h s.vars = chain (pad m) (s.blk + 1) := by rw [hvars, chain, ← hh]; rfl
  by_cases hlast : s.blk + 1 = s.nblk
  · refine tracks_of_format (if_pos hlast) hm ⟨hpmem, hnblk⟩ ⟨hlast, ?_⟩
    rw [finalHash, ← hnblk, ← hlast]
    exact hnew
  · have hnext : s.blk + 1 < s.nblk := by omega
    exact tracks_of_hashesBlock ⟨hm, hpmem, hnblk, hnext, hnew⟩ (.inl (if_neg hlast))

theorem exec_format_keeps_tracks (ht : Tracks s m) (hp : s.phase = Phase.format) (h : exec .format s = .next t) :
    Tracks t m := by
  obtain rfl := Host.Outcome.next.inj h
  obtain ⟨hblk, hh⟩ := ht.finished (.inl hp)
  refine tracks_of_done rfl ht.message (ht.padded (by rw [hp]; decide)) ⟨hblk, hh⟩ ?_
  simp [hh, sha256hex]

theorem coreStep_keeps_tracks (ht : Tracks s m) (h : coreStep s = .next t) : Tracks t m := by
  rcases coreStep_cases s with ⟨hp, hs⟩ | ⟨hp, hs⟩ | ⟨hp, hs⟩ | ⟨hp, hs⟩ | ⟨hp, hs⟩ | ⟨hp, hs⟩ | ⟨hp, hs⟩ | ⟨-, hs⟩ <;>
    rw [hs] at h
  · exact exec_pad_keeps_tracks ht hp h
  · exact exec_load_keeps_tracks ht hp h
  · exact exec_expand_keeps_tracks ht hp h
  · exact exec_initv_keeps_tracks ht hp h
  · exact exec_round_keeps_tracks ht hp h
  · exact exec_accum_keeps_tracks ht hp h
  · exact exec_format_keeps_tracks ht hp h
  · obtain rfl := Host.Outcome.next.inj h
    exact ht


/-! ### How many steps a run still takes (R111) -/

/-- The steps the core still takes on the block in work: of the 115, LOAD is the first, 48 are EXPAND, then come INITV and
64 times ROUND, and ACCUM is the last. -/
def State.blockStepsLeft (s : State) : Nat :=
  if s.phase = Phase.load then 115
  else if s.phase = Phase.expand then 66 + (64 - s.t.toNat)
  else if s.phase = Phase.initv then 66
  else if s.phase = Phase.round then 1 + (64 - s.t.toNat)
  else 1

/-- The steps the core still takes until `DONE`: PAD, 115 for each block, FORMAT. -/
def State.stepsLeft (s : State) : Nat :=
  if s.phase = Phase.pad then 2 + 115 * blockCount s.msgLen
  else if phaseInBlock s.phase then 1 + 115 * (s.nblk - (s.blk + 1)) + s.blockStepsLeft
  else if s.phase = Phase.format then 1
  else 0

theorem stepsLeft_of_pad (hp : s.phase = Phase.pad) : s.stepsLeft = 2 + 115 * blockCount s.msgLen := if_pos hp

theorem stepsLeft_of_load (hp : s.phase = Phase.load) :
    s.stepsLeft = 1 + 115 * (s.nblk - (s.blk + 1)) + 115 := by
  simp +decide [State.stepsLeft, State.blockStepsLeft, hp]

theorem stepsLeft_of_expand (hp : s.phase = Phase.expand) :
    s.stepsLeft = 1 + 115 * (s.nblk - (s.blk + 1)) + (66 + (64 - s.t.toNat)) := by
  simp +decide [State.stepsLeft, State.blockStepsLeft, hp]

theorem stepsLeft_of_initv (hp : s.phase = Phase.initv) :
    s.stepsLeft = 1 + 115 * (s.nblk - (s.blk + 1)) + 66 := by
  simp +decide [State.stepsLeft, State.blockStepsLeft, hp]

theorem stepsLeft_of_round (hp : s.phase = Phase.round) :
    s.stepsLeft = 1 + 115 * (s.nblk - (s.blk + 1)) + (1 + (64 - s.t.toNat)) := by
  simp +decide [State.stepsLeft, State.blockStepsLeft, hp]

theorem stepsLeft_of_accum (hp : s.phase = Phase.accum) :
    s.stepsLeft = 1 + 115 * (s.nblk - (s.blk + 1)) + 1 := by
  simp +decide [State.stepsLeft, State.blockStepsLeft, hp]

theorem stepsLeft_of_format (hp : s.phase = Phase.format) : s.stepsLeft = 1 := by
  simp +decide [State.stepsLeft, hp]

theorem stepsLeft_of_not_busy (hb : s.busy = false) : s.stepsLeft = 0 := by
  have hn := mt (phaseBusy_iff s.phase).mpr (by simpa [State.busy] using hb)
  simp only [not_or] at hn
  obtain ⟨h1, h2, h3, h4, h5, h6, h7⟩ := hn
  simp [State.stepsLeft, phaseInBlock, *]

/-- A run with steps left has not come to `DONE`. -/
theorem isDone_eq_false_of_stepsLeft_pos (h : 0 < s.stepsLeft) : s.isDone = false := by
  by_contra hd
  have hp : s.phase = Phase.done := (phaseDone_iff s.phase).mp (by simpa [State.isDone] using hd)
  rw [stepsLeft_of_not_busy (by rw [State.busy, hp]; rfl)] at h
  exact Nat.lt_irrefl 0 h

/-- A run that has no step left shows `DONE`. -/
theorem Tracks.phase_done (ht : Tracks s m) (h : s.stepsLeft = 0) : s.phase = Phase.done := by
  rcases ht.legal with hb | hd
  · rcases (phaseBusy_iff s.phase).mp hb with hp | hp | hp | hp | hp | hp | hp
    · rw [stepsLeft_of_pad hp] at h; omega
    · rw [stepsLeft_of_load hp] at h; omega
    · rw [stepsLeft_of_expand hp] at h; omega
    · rw [stepsLeft_of_initv hp] at h; omega
    · rw [stepsLeft_of_round hp] at h; omega
    · rw [stepsLeft_of_accum hp] at h; omega
    · rw [stepsLeft_of_format hp] at h; omega
  · exact (phaseDone_iff s.phase).mp hd

theorem exec_pad_stepsLeft (hr : RangeInvariant s) (hp : s.phase = Phase.pad) (h : exec .pad s = .next t) :
    t.stepsLeft + 1 = s.stepsLeft := by
  obtain rfl := Host.Outcome.next.inj h
  have hpos := blockCount_pos s.msgLen
  rw [stepsLeft_of_load rfl, stepsLeft_of_pad hp]
  dsimp only
  rw [hr.first hp]
  omega

theorem exec_expand_stepsLeft (hr : RangeInvariant s) (hp : s.phase = Phase.expand) (h : exec .expand s = .next t) :
    t.stepsLeft + 1 = s.stepsLeft := by
  obtain rfl := Host.Outcome.next.inj h
  obtain ⟨-, hhigh⟩ := hr.expand hp
  rw [stepsLeft_of_expand hp]
  by_cases hlast : s.t = 63#7
  · rw [stepsLeft_of_initv (if_pos hlast), hlast]
    rfl
  · rw [stepsLeft_of_expand (if_neg hlast)]
    dsimp only
    rw [toNat_succ_t hhigh]
    omega

theorem exec_round_stepsLeft (hr : RangeInvariant s) (hp : s.phase = Phase.round) (h : exec .round s = .next t) :
    t.stepsLeft + 1 = s.stepsLeft := by
  obtain rfl := Host.Outcome.next.inj h
  have hhigh := hr.round hp
  rw [stepsLeft_of_round hp]
  by_cases hlast : s.t = 63#7
  · rw [stepsLeft_of_accum (if_pos hlast), hlast]
    rfl
  · rw [stepsLeft_of_round (if_neg hlast)]
    dsimp only
    rw [toNat_succ_t hhigh]
    omega

theorem exec_accum_stepsLeft (hr : RangeInvariant s) (hp : s.phase = Phase.accum) (h : exec .accum s = .next t) :
    t.stepsLeft + 1 = s.stepsLeft := by
  obtain rfl := Host.Outcome.next.inj h
  obtain ⟨hblk, -⟩ := hr.blockInWork (by rw [hp]; rfl)
  rw [stepsLeft_of_accum hp]
  by_cases hlast : s.blk + 1 = s.nblk
  · rw [stepsLeft_of_format (if_pos hlast)]
    omega
  · rw [stepsLeft_of_load (if_neg hlast)]
    dsimp only
    omega

/-- Each step of a busy core takes one off the steps left. -/
theorem coreStep_stepsLeft (hr : RangeInvariant s) (hb : s.busy = true) (h : coreStep s = .next t) :
    t.stepsLeft + 1 = s.stepsLeft := by
  rcases coreStep_cases s with ⟨hp, hs⟩ | ⟨hp, hs⟩ | ⟨hp, hs⟩ | ⟨hp, hs⟩ | ⟨hp, hs⟩ | ⟨hp, hs⟩ | ⟨hp, hs⟩ | ⟨hn, -⟩
  · exact exec_pad_stepsLeft hr hp (hs.symm.trans h)
  · obtain rfl := Host.Outcome.next.inj (hs.symm.trans h)
    rw [stepsLeft_of_expand rfl, stepsLeft_of_load hp]
    rfl
  · exact exec_expand_stepsLeft hr hp (hs.symm.trans h)
  · obtain rfl := Host.Outcome.next.inj (hs.symm.trans h)
    rw [stepsLeft_of_round rfl, stepsLeft_of_initv hp]
    rfl
  · exact exec_round_stepsLeft hr hp (hs.symm.trans h)
  · exact exec_accum_stepsLeft hr hp (hs.symm.trans h)
  · obtain rfl := Host.Outcome.next.inj (hs.symm.trans h)
    rw [stepsLeft_of_not_busy rfl, stepsLeft_of_format hp]
  · exact absurd hb (by simp [State.busy, hn])

/-! ### The core's steps one after the other -/

/-- No step of the core fails, and none touches what is the host's. -/
theorem coreStep_next (s : State) :
    ∃ t, coreStep s = .next t ∧ t.script = s.script ∧ t.replies = s.replies := by
  rcases coreStep_cases s with ⟨-, hs⟩ | ⟨-, hs⟩ | ⟨-, hs⟩ | ⟨-, hs⟩ | ⟨-, hs⟩ | ⟨-, hs⟩ | ⟨-, hs⟩ | ⟨-, hs⟩ <;>
    exact ⟨_, hs, rfl, rfl⟩

/-- The host leaves the moves until `DONE` to the core: it has no line left, or waits (R63). -/
def State.hostWaits (s : State) : Prop := s.script = [] ∨ ∃ rest, s.script = .waitDone :: rest

theorem step_of_hostWaits (hw : s.hostWaits) (hd : s.isDone = false) : step s = coreStep s := by
  rcases hw with h | ⟨rest, h⟩
  · exact step_of_script_nil h
  · exact step_of_script_wait h hd

theorem runSteps_trans {u : State} {n k : Nat} (h : runSteps n s = .next t) (h' : runSteps k t = .next u) :
    runSteps (n + k) s = .next u := (runSteps_add h k).trans h'

/-- While the host waits, every step is a step of the core and takes the run one step nearer to its end. -/
theorem runSteps_of_hostWaits {k : Nat} (ht : Tracks s m) (hw : s.hostWaits) (hk : k ≤ s.stepsLeft) :
    ∃ t, runSteps k s = .next t ∧ Tracks t m ∧ t.stepsLeft + k = s.stepsLeft ∧ t.script = s.script ∧
      t.replies = s.replies := by
  induction k generalizing s with
  | zero => exact ⟨s, rfl, ht, rfl, rfl, rfl⟩
  | succ k ih =>
    have hd : s.isDone = false := isDone_eq_false_of_stepsLeft_pos (by omega)
    have hb : s.busy = true := ht.legal.resolve_right (by simp [hd])
    obtain ⟨u, hu, hscript, hreplies⟩ := coreStep_next s
    have hleft := coreStep_stepsLeft (rangeInvariant_of_tracks ht) hb hu
    have hwu : u.hostWaits := by simpa [State.hostWaits, hscript] using hw
    obtain ⟨t, hrun, htt, hlt, hst, hrt⟩ := ih (coreStep_keeps_tracks ht hu) hwu (by omega)
    refine ⟨t, ?_, htt, by omega, hst.trans hscript, hrt.trans hreplies⟩
    rw [runSteps_succ ((step_of_hostWaits hw hd).trans hu), hrun]

/-- A core the host waits for comes to `DONE` with the digest of its message (R111). -/
theorem runSteps_to_done (ht : Tracks s m) (hw : s.hostWaits) :
    ∃ t, runSteps s.stepsLeft s = .next t ∧ Tracks t m ∧ t.phase = Phase.done ∧ t.script = s.script ∧
      t.replies = s.replies := by
  obtain ⟨t, hrun, htt, hleft, hscript, hreplies⟩ := runSteps_of_hostWaits ht hw (Nat.le_refl _)
  exact ⟨t, hrun, htt, htt.phase_done (by omega), hscript, hreplies⟩

/-! ### `HASH` (R64) -/

theorem tracks_beginMessage (m : List Byte) (s : State) : Tracks (s.beginMessage m) m :=
  tracks_of_pad rfl ⟨rfl, rfl⟩ rfl rfl

theorem blockCount_eq (L : Nat) : blockCount L = (L + 8) / 64 + 1 := by
  have hmul := blockCount_mul L
  have hlt := padZeros_lt L
  omega

theorem replyHex_of_done (hp : s.phase = Phase.done) : s.replyHex = s.reply (.hex s.hex) :=
  if_pos ((phaseDone_iff s.phase).mpr hp)

/-- `START` in `IDLE` or `DONE` with a message the platform can offer (R105). -/
theorem exec_start_begins (hfits : messageFits s.maxMsgBytes m = true) (hq : s.quiet = true) :
    exec (.start m) s = .next (s.beginMessage m) := by
  rw [exec_start_fits hfits, if_pos hq]

/-- The line `HASH m` on a quiescent core: two steps later the message is taken over and the host waits. -/
theorem runSteps_hash_begins {rest : List ScriptLine} (hfits : messageFits s.maxMsgBytes m = true)
    (hq : s.quiet = true) (hscript : s.script = .event (.hash m) :: rest) :
    runSteps 2 s = .next ((s.withScript (.waitDone :: .event (.read .hex) :: rest)).beginMessage m) := by
  have hline : step s = .next (s.withScript (hashScript m ++ rest)) := step_of_script_event hscript
  have hstart : step (s.withScript (hashScript m ++ rest)) =
      .next ((s.withScript (.waitDone :: .event (.read .hex) :: rest)).beginMessage m) := by
    rw [step_of_script_event (e := .command 0b01 m) rfl]
    exact exec_start_begins (s := s.withScript (.waitDone :: .event (.read .hex) :: rest)) hfits hq
  rw [runSteps_succ hline, runSteps_succ hstart, runSteps_zero]

/-- In `DONE` the host goes on from the wait and reads `HEX`. -/
theorem runSteps_wait_read_hex {rest : List ScriptLine} (hp : s.phase = Phase.done)
    (hscript : s.script = .waitDone :: .event (.read .hex) :: rest) :
    runSteps 2 s = .next ((s.withScript rest).reply (.hex s.hex)) := by
  have hwait := step_of_script_wait_done hscript ((phaseDone_iff s.phase).mpr hp)
  have hread : step (s.withScript (.event (.read .hex) :: rest)) = .next ((s.withScript rest).reply (.hex s.hex)) := by
    rw [step_of_script_event (e := .read .hex) rfl]
    exact congrArg _ (replyHex_of_done (s := s.withScript rest) hp)
  rw [runSteps_succ hwait, runSteps_succ hread, runSteps_zero]

end

/-- Settles O58: the line and its START, then the core's run to `DONE`, then the wait and the read. -/
theorem hashReturnsSha256 : Obligations.HashReturnsSha256 := by
  intro m s rest hfits hphase hscript
  have hbegin := runSteps_hash_begins hfits ((phaseQuiet_iff s.phase).mpr hphase) hscript
  obtain ⟨t, hrun, htracks, hdone, hlines, hreplies⟩ := runSteps_to_done
    (tracks_beginMessage m (s.withScript (.waitDone :: .event (.read .hex) :: rest))) (.inr ⟨_, rfl⟩)
  obtain ⟨-, hhex⟩ := htracks.done hdone
  rw [stepsLeft_of_pad (State.beginMessage_phase _ m), State.beginMessage_msgLen, blockCount_eq] at hrun
  refine ⟨_, runSteps_trans (runSteps_trans hbegin hrun) (runSteps_wait_read_hex hdone hlines), ?_, rfl, hdone⟩
  rw [State.reply_replies, State.withScript_replies, hhex, hreplies]
  rfl

end Sys2Proof.Machine
end

section
/-! How an operation is selected and when it runs (R57 to R59, R63), the formats of blocks, `HEX` and `STATUS` (R52, R54,
R60), and the other obligations of spec/30_encoding.md. -/

namespace Sys2Proof.Machine

/-! ### Decoding and encoding (R57 to R59) -/

theorem decode_encode (i : Instr) : decode i.encode = .ok i := by cases i <;> rfl

theorem encode_injective {i j : Instr} (h : i.encode = j.encode) : i = j :=
  Except.ok.inj ((decode_encode i).symm.trans ((congrArg decode h).trans (decode_encode j)))

/-- A `PHASE` code selects no operation but the one it is the code of. -/
theorem encode_of_decodePhase {code : BitVec 4} {i : Instr} (h : decodePhase code = .ok i) : i.encode = .phase code := by
  unfold decodePhase at h
  split_ifs at h <;> obtain rfl := Except.ok.inj h <;> subst code <;> rfl

theorem decode_phase_iff (code : BitVec 4) (i : Instr) : decode (.phase code) = .ok i ↔ i.encode = .phase code :=
  ⟨encode_of_decodePhase, fun h => h ▸ decode_encode i⟩

/-- Settles O1: the encoding is a section of the decoder, and onto it for the codes of `PHASE`. -/
theorem encodingIsFaithful : Obligations.EncodingIsFaithful :=
  ⟨decode_encode, decode_phase_iff, fun _ _ => encode_injective⟩

/-- The two low bits of the bus are its value modulo 4. -/
theorem ofNat_two_eq_iff (bus : Nat) (c : BitVec 2) : BitVec.ofNat 2 bus = c ↔ bus % 4 = c.toNat := by
  rw [← BitVec.toNat_inj, BitVec.toNat_ofNat]

/-- R58 by the value on the bus. -/
theorem decodeCommand_eq (bus : Nat) (m : List Byte) : decodeCommand bus m =
    if bus % 4 = 0 then .nop else if bus % 4 = 1 then .start m else if bus % 4 = 2 then .reset else .rsvd := by
  simp only [decodeCommand, ofNat_two_eq_iff]
  rfl

/-- Settles O2: a write by `decodeCommand_eq`, the reset input by the decoder's own row. -/
theorem commandCodesSelectCommands : Obligations.CommandCodesSelectCommands :=
  ⟨fun bus m => congrArg Except.ok (decodeCommand_eq bus m), fun _ => rfl⟩

/-- Settles O3: each word by the decoder's own row. -/
theorem tableCodesDecode : Obligations.TableCodesDecode :=
  ⟨rfl, rfl, rfl, rfl, rfl, rfl, rfl, rfl, rfl, rfl, rfl, rfl, rfl, rfl, rfl⟩

/-! ### What is placed for fetching is what runs -/

theorem decodeTableWord_eq_some {nbits w : Nat} {i : Instr} (h : decodeTableWord nbits w = some i) :
    decode (tableSelector nbits w) = .ok i := by
  unfold decodeTableWord at h
  split at h
  · rw [← Option.some.inj h]
    assumption
  · cases h

/-- Settles O4: a placed event is a line of the script, a placed `PHASE` code is in `PHASE` with one step of `RUN`. -/
theorem placedWordIsRun : Obligations.PlacedWordIsRun := by
  intro s nbits w i h
  have hdecode := decodeTableWord_eq_some h
  rw [State.withFetchWord]
  cases hsel : tableSelector nbits w with
  | phase code =>
    rw [hsel] at hdecode
    refine ⟨_, ?_, .inr ⟨code, (decode_phase_iff code i).mp hdecode, rfl⟩⟩
    exact (step_of_script_run_succ (n := 0) rfl).trans (coreStep_of_decode hdecode)
  | host e =>
    rw [hsel] at hdecode
    obtain rfl := Except.ok.inj hdecode
    exact ⟨s, step_of_script_event rfl, .inl rfl⟩

/-! ### The host's lines (R63, R64) -/

theorem coreStep_of_decode_error {s : State} {r : NoOperation} (h : decodePhase s.phase = .error r) :
    coreStep s = .next s := by
  simp only [coreStep, h]

theorem isDone_eq_false_iff {s : State} : s.isDone = false ↔ s.phase ≠ Phase.done := by
  rw [← Bool.not_eq_true, State.isDone, phaseDone_iff]

theorem phase_ne_done_of_decode {p : BitVec 4} {i : Instr} (h : decodePhase p = .ok i) : p ≠ Phase.done := by
  rintro rfl
  cases h

/-- Settles O6: `RUN` and `WAIT DONE` by the ways to step, and what the core then does by what `PHASE` selects. -/
theorem scriptLinesPaceTheCore : Obligations.ScriptLinesPaceTheCore := by
  intro s rest
  refine ⟨step_of_script_run_zero, fun n i hs hd => ?_, fun n r hs hd => ?_, fun hs hp => ?_, fun i hs hd => ?_,
    fun r hs hp hd => ?_⟩
  · exact (step_of_script_run_succ hs).trans (coreStep_of_decode hd)
  · exact (step_of_script_run_succ hs).trans (coreStep_of_decode_error hd)
  · exact step_of_script_wait_done hs ((phaseDone_iff s.phase).mpr hp)
  · exact (step_of_script_wait hs (isDone_eq_false_iff.mpr (phase_ne_done_of_decode hd))).trans (coreStep_of_decode hd)
  · exact (step_of_script_wait hs (isDone_eq_false_iff.mpr hp)).trans (coreStep_of_decode_error hd)

/-- Settles O43: the meaning of `HASH` is this equation. -/
theorem hashExpandsIntoItsScript : Obligations.HashExpandsIntoItsScript := exec_hash

/-! ### The sequencer's table (R59) -/

section
variable {s : State}

/-- A row of the table whose operation answers with the successor phase `p`. -/
theorem sequencer_row {i : Instr} {p : BitVec 4} (hs : s.script = []) (hd : decodePhase s.phase = .ok i)
    (hsucc : ∃ t, exec i s = .next t ∧ t.phase = p) :
    step s = exec i s ∧ ∃ t, step s = .next t ∧ t.phase = p := by
  have hstep : step s = exec i s := (step_of_script_nil hs).trans (coreStep_of_decode hd)
  exact ⟨hstep, hstep ▸ hsucc⟩

/-- A row of the table where the core waits for `START`. -/
theorem quiescent_row (hs : s.script = []) (hp : s.phase = Phase.idle ∨ s.phase = Phase.done) :
    step s = .next s ∧ ∀ m, messageFits s.maxMsgBytes m = true →
      ∃ t, exec (.start m) s = .next t ∧ t.phase = Phase.pad := by
  refine ⟨(step_of_script_nil hs).trans (coreStep_of_not_busy ?_), fun m hfits => ?_⟩
  · rcases hp with hp | hp <;> rw [hp] <;> rfl
  · exact ⟨_, exec_start_begins hfits ((phaseQuiet_iff s.phase).mpr hp), rfl⟩

theorem phaseBusy_of_reserved {p : BitVec 4} (h : 0x9#4 ≤ p) : phaseBusy p = false := by
  revert p
  decide

/-- Settles O7: the rows without an operation by `quiescent_row` and `coreStep_of_not_busy`, the others by
`sequencer_row` and the operation's own equation. -/
theorem sequencerFollowsItsTable : Obligations.SequencerFollowsItsTable := by
  intro s hs
  refine ⟨fun hp => quiescent_row hs (.inl hp), fun hp => ?_, fun hp => ?_, fun hp => ?_, fun hp => ?_, fun hp => ?_,
    fun hp => ?_, fun hp => ?_, fun hp => quiescent_row hs (.inr hp), fun hp => ?_⟩
  · exact sequencer_row hs (by rw [hp, decodePhase_pad]) ⟨_, exec_pad s, rfl⟩
  · exact sequencer_row hs (by rw [hp, decodePhase_load]) ⟨_, exec_load s, rfl⟩
  · exact sequencer_row hs (by rw [hp, decodePhase_expand]) ⟨_, exec_expand s, (ite_not ..).symm⟩
  · exact sequencer_row hs (by rw [hp, decodePhase_initv]) ⟨_, exec_initv s, rfl⟩
  · exact sequencer_row hs (by rw [hp, decodePhase_round]) ⟨_, exec_round s, (ite_not ..).symm⟩
  · exact sequencer_row hs (by rw [hp, decodePhase_accum]) ⟨_, exec_accum s, (ite_not ..).symm⟩
  · exact sequencer_row hs (by rw [hp, decodePhase_format]) ⟨_, exec_format s, rfl⟩
  · exact (step_of_script_nil hs).trans (coreStep_of_not_busy (phaseBusy_of_reserved hp))

end

/-! ### Blocks (R52) -/

theorem toNat_append_byte {n : Nat} (x : BitVec n) (b : Byte) : (x ++ b).toNat = x.toNat * 2 ^ 8 + b.toNat := by
  rw [BitVec.toNat_append, ← Nat.shiftLeft_add_eq_or_of_lt b.isLt, Nat.shiftLeft_eq]

theorem toNat_be32 (b0 b1 b2 b3 : Byte) :
    (be32 b0 b1 b2 b3).toNat = b0.toNat * 2 ^ 24 + b1.toNat * 2 ^ 16 + b2.toNat * 2 ^ 8 + b3.toNat := by
  simp only [be32, toNat_append_byte]
  omega

theorem toNat_blockWord (p : List Byte) (b i : Nat) : (blockWord p b i).toNat =
    (p.getD (64 * b + 4 * i) 0#8).toNat * 2 ^ 24 + (p.getD (64 * b + 4 * i + 1) 0#8).toNat * 2 ^ 16 +
    (p.getD (64 * b + 4 * i + 2) 0#8).toNat * 2 ^ 8 + (p.getD (64 * b + 4 * i + 3) 0#8).toNat :=
  toNat_be32 ..

/-- The last eight bytes of a padded message are those of its length field (R51, R70). -/
theorem pad_getD_lengthField (m : List Byte) {j : Nat} (hj : j < 8) :
    ((pad m).getD (64 * blockCount m.length - 8 + j) 0#8).toNat = lengthField m.length / 2 ^ (8 * (7 - j)) % 2 ^ 8 := by
  have hlen := blockCount_mul m.length
  have hat : (pad m)[64 * blockCount m.length - 8 + j]? = (bytesBE (lengthField m.length) 8)[j]? := by
    rw [pad, List.getElem?_append_right (by simp; omega)]
    congr 1
    simp
    omega
  rw [List.getD_eq_getElem?_getD, hat, getElem?_bytesBE, if_pos hj, Option.getD_some, BitVec.toNat_ofNat,
    Nat.shiftRight_eq_div_pow]

/-- Settles O20: four bytes make a word, and the length field is the last eight bytes. -/
theorem blockFormat : Obligations.BlockFormat := by
  refine ⟨toNat_blockWord, fun m => ?_⟩
  have hpos := blockCount_pos m.length
  have hlt : lengthField m.length < 2 ^ 64 := Nat.mod_lt _ (by decide)
  have hfirst : 64 * (blockCount m.length - 1) + 4 * 14 = 64 * blockCount m.length - 8 := by omega
  have hsecond : 64 * (blockCount m.length - 1) + 4 * 15 = 64 * blockCount m.length - 8 + 4 := by omega
  have hbyte := fun j (hj : j < 8) => pad_getD_lengthField m hj
  rw [toNat_blockWord, toNat_blockWord, hfirst, hsecond]
  simp only [Nat.add_assoc (64 * blockCount m.length - 8)]
  have h0 := hbyte 0 (by decide)
  rw [Nat.add_zero] at h0
  rw [h0, hbyte 1 (by decide), hbyte 2 (by decide), hbyte 3 (by decide), hbyte 4 (by decide),
    hbyte (4 + 1) (by decide), hbyte (4 + 2) (by decide), hbyte (4 + 3) (by decide)]
  omega

/-! ### `HEX` (R54) -/

/-- Four bits of byte `j` of a word, counted in the word. -/
theorem extractLsb'_wordByte (v : Word) (j k : Nat) (hk : k ≤ 4) :
    (wordByte v j).extractLsb' k 4 = v.extractLsb' (8 * (3 - j) + k) 4 := by
  ext i hi
  have h8 : k + i < 8 := by omega
  simp [wordByte, h8, Nat.add_assoc]

theorem getElem_hexOf (d : Vector Byte 32) {m : Nat} (hm : m < 64) :
    (hexOf d)[m] = hexdigit ((d[m / 2]).extractLsb' (if m % 2 = 0 then 4 else 0) 4) := by
  simp [hexOf]

theorem getElem_digestOf (h : Vector Word 8) {n : Nat} (hn : n < 32) :
    (digestOf h)[n] = wordByte h[n / 4] (n % 4) := by
  simp [digestOf]

/-- Settles O33: the digits of a byte by `getElem_hexOf`; and digit `m` is the nibble `m % 8` of word `m / 8`, counted
from its high end. -/
theorem hexFormat : Obligations.HexFormat := by
  refine ⟨fun d n hn => ⟨?_, ?_⟩, fun h m hm => ?_⟩
  · simp [getElem_hexOf]
  · have hbyte : (2 * n + 1) / 2 = n := by omega
    simp [getElem_hexOf, hbyte]
  · have hnibble : 8 * (3 - m / 2 % 4) + (if m % 2 = 0 then 4 else 0) = 28 - 4 * (m % 8) := by split <;> omega
    rw [getElem_hexOf, getElem_digestOf, extractLsb'_wordByte _ _ _ (by split <;> omega), hnibble]
    simp only [Nat.div_div_eq_div_mul]

/-! ### `STATUS` (R60) -/

/-- Settles O14: at each of the sixteen codes. -/
theorem statusFormat : Obligations.StatusFormat := by
  unfold Obligations.StatusFormat
  decide

end Sys2Proof.Machine
end

section
/-! The bytes of a padded message (R70, R72), and the obligations of spec/41_preprocessor.md. -/

namespace Sys2Proof.Machine

/-! ### The number of padding zeros and the length field (R50, R51) -/

/-- The residues of `L + 1 + k'` for the `k'` below 64 are distinct, so no smaller `k'` reaches 56. -/
theorem add_mod_ne_of_lt_padZeros {L k' : Nat} (h : k' < padZeros L) : (L + 1 + k') % 64 ≠ 56 := by
  have hmod := padZeros_mod L
  have hlt := padZeros_lt L
  omega

/-- `padZeros` is the spec's `(55 - L) mod 64`, whose difference goes below zero (R50). -/
theorem padZeros_eq_int_mod (L : Nat) : (padZeros L : Int) = (55 - L) % 64 := by
  unfold padZeros
  omega

theorem lengthField_eq (L : Nat) : lengthField L = 8 * (L % 2 ^ 61) := by
  unfold lengthField
  omega

theorem lengthField_lt (L : Nat) : lengthField L < 2 ^ 64 := Nat.mod_lt _ (by decide)

theorem lengthField_of_lt {L : Nat} (h : 8 * L < 2 ^ 64) : lengthField L = 8 * L := Nat.mod_eq_of_lt h

/-! ### Big-endian bytes (R8) -/

/-- Bit `i` of a number is a bit of one of its bytes. -/
theorem testBit_eq_getLsbD_byte (v i : Nat) :
    v.testBit i = (BitVec.ofNat 8 (v >>> (8 * (i / 8)))).getLsbD (i % 8) := by
  have hlow : i % 8 < 8 := Nat.mod_lt _ (by decide)
  rw [BitVec.getLsbD_ofNat, decide_eq_true hlow, Bool.true_and, Nat.testBit_shiftRight, Nat.div_add_mod]

/-- `n` bytes determine a number they can hold. -/
theorem bytesBE_injective {v w n : Nat} (hv : v < 2 ^ (8 * n)) (hw : w < 2 ^ (8 * n))
    (h : bytesBE v n = bytesBE w n) : v = w := by
  refine Nat.eq_of_testBit_eq fun i => ?_
  by_cases hi : i < 8 * n
  · have hat : n - 1 - i / 8 < n := by omega
    have hshift : n - 1 - (n - 1 - i / 8) = i / 8 := by omega
    have hbyte := congrArg (·[n - 1 - i / 8]?) h
    simp only [getElem?_bytesBE, if_pos hat, hshift, Option.some.injEq] at hbyte
    rw [testBit_eq_getLsbD_byte v, testBit_eq_getLsbD_byte w, hbyte]
  · have hbig : 2 ^ (8 * n) ≤ 2 ^ i := Nat.pow_le_pow_right (by decide) (Nat.le_of_not_lt hi)
    rw [Nat.testBit_lt_two_pow (hv.trans_le hbig), Nat.testBit_lt_two_pow (hw.trans_le hbig)]

/-! ### The bytes of a padded message, field by field (R70) -/

theorem getElem?_pad_message (m : List Byte) {j : Nat} (h : j < m.length) : (pad m)[j]? = m[j]? := by
  simp [pad, List.append_assoc, List.getElem?_append_left h]

theorem getElem?_pad_mark (m : List Byte) : (pad m)[m.length]? = some 0x80#8 := by
  simp [pad]

theorem getElem?_pad_zeros (m : List Byte) {j : Nat} (hlow : m.length < j) (hhigh : j < m.length + 1 + padZeros m.length) :
    (pad m)[j]? = some 0x00#8 := by
  have hat : j - (m.length + 1) < padZeros m.length := by omega
  rw [pad, List.getElem?_append_left (by simp; omega), List.getElem?_append_right (by simpa using hlow)]
  simp [hat]

theorem drop_pad (m : List Byte) :
    (pad m).drop (m.length + 1 + padZeros m.length) = bytesBE (lengthField m.length) 8 :=
  List.drop_left' (by simp; omega)

theorem getElem?_pad_lengthField (m : List Byte) {j : Nat} (h : j < 8) :
    (pad m)[m.length + 1 + padZeros m.length + j]? =
      some (BitVec.ofNat 8 (lengthField m.length / 2 ^ (8 * (7 - j)))) := by
  rw [← List.getElem?_drop, drop_pad, getElem?_bytesBE, if_pos h, Nat.shiftRight_eq_div_pow]

theorem take_pad (m : List Byte) : (pad m).take m.length = m := by
  simp [pad, List.append_assoc]

/-- Where the bit length fits its field, the last eight bytes of a padded message give the message's length (R72). -/
theorem length_eq_of_pad_eq {m n : List Byte} (hm : 8 * m.length < 2 ^ 64) (hn : 8 * n.length < 2 ^ 64)
    (h : pad m = pad n) : m.length = n.length := by
  have hlen : m.length + 1 + padZeros m.length = n.length + 1 + padZeros n.length := by
    have htotal := congrArg List.length h
    rwa [length_pad, length_pad, Nat.add_right_cancel_iff] at htotal
  have hbytes : bytesBE (lengthField m.length) 8 = bytesBE (lengthField n.length) 8 := by
    rw [← drop_pad, ← drop_pad, h, hlen]
  have hfield := bytesBE_injective (lengthField_lt _) (lengthField_lt _) hbytes
  rw [lengthField_of_lt hm, lengthField_of_lt hn] at hfield
  omega

/-- Settles O17: the length by `length_pad`, the fields one by one, the least `k` by the residues; and a message is the
first bytes of its padded form, as many as the length field says. -/
theorem paddingProperties : Obligations.PaddingProperties := by
  refine ⟨fun m => ?_, fun m => ?_, fun L k' => add_mod_ne_of_lt_padZeros, fun m n hm hn h => ?_⟩
  · have hlen := length_pad m
    have hmod := padZeros_mod m.length
    have hint := padZeros_eq_int_mod m.length
    omega
  · have hfield : (pad m).length - 8 = m.length + 1 + padZeros m.length := by rw [length_pad, Nat.add_sub_cancel]
    rw [hfield]
    exact ⟨fun j => getElem?_pad_message m, getElem?_pad_mark m, fun j => getElem?_pad_zeros m, drop_pad m⟩
  · rw [← take_pad m, ← take_pad n, length_eq_of_pad_eq hm hn h, h]

/-! ### What PAD stores (R71, R73) -/

@[simp] theorem length_msgBytes (s : State) : s.msgBytes.length = s.msgLen := by simp [State.msgBytes]

theorem getElem?_msgBytes (s : State) {j : Nat} (h : j < s.msgLen) : s.msgBytes[j]? = some (s.msgByte j) := by
  simp [State.msgBytes, h]

/-- The length field in a store of the padded message of a state. -/
theorem read?_pad_lengthField (s : State) {j : Nat} (h : j < 8) :
    (Memory.ofBytes (pad s.msgBytes)).read? (s.msgLen + 1 + padZeros s.msgLen + j) =
      some (BitVec.ofNat 8 (lengthField s.msgLen / 2 ^ (8 * (7 - j)))) := by
  rw [Memory.read?_ofBytes]
  simpa using getElem?_pad_lengthField s.msgBytes h

/-- Settles O16: `k` is `padZeros`, and each byte of `PMEM` is read in its field of the padded message. -/
theorem padWritesPaddedMessage : Obligations.PadWritesPaddedMessage := by
  intro s
  have hlen : (pad s.msgBytes).length = 64 * blockCount s.msgLen := by
    rw [length_pad_eq_blockCount, length_msgBytes]
  refine ⟨_, padZeros s.msgLen, exec_pad s, padZeros_mod _, fun k' => add_mod_ne_of_lt_padZeros, blockCount_mul _,
    fun j hj => ?message, ?mark, fun j hlow hhigh => ?zeros, fun j => read?_pad_lengthField s, fun j hj => ?beyond,
    rfl, rfl⟩
  case message => rw [Memory.read?_ofBytes, getElem?_pad_message _ (by simpa using hj), getElem?_msgBytes s hj]
  case mark => simpa using getElem?_pad_mark s.msgBytes
  case zeros => rw [Memory.read?_ofBytes, getElem?_pad_zeros _ (by simpa using hlow) (by simpa using hhigh)]
  case beyond => rw [Memory.read?_ofBytes, List.getElem?_eq_none (hlen.trans_le hj)]

/-- Settles O18: the length field is the last eight bytes of the last block, and the count of the blocks is not cut. -/
theorem lengthFieldTruncates : Obligations.LengthFieldTruncates := by
  refine ⟨lengthField_eq, by decide, by decide, by decide, fun s => ⟨_, exec_pad s, blockCount_eq _, fun j hj => ?_⟩⟩
  have hat : 64 * blockCount s.msgLen - 8 = s.msgLen + 1 + padZeros s.msgLen := by
    rw [blockCount_mul, Nat.add_sub_cancel]
  rw [← lengthField_eq, ← read?_pad_lengthField s hj, ← hat]

/-- Settles O19: the padded message fills its blocks, whose number is `blockCount_eq`; the table row by row. -/
theorem blockCountClosedForm : Obligations.BlockCountClosedForm := by
  refine ⟨fun m => ?_, blockCount_eq, by decide⟩
  rw [length_pad_eq_blockCount, blockCount_eq]

end Sys2Proof.Machine
end

section
/-! Bytes and words as two views of the same bits (R8, R82), and the obligations of spec/42_block_load.md. -/

namespace Sys2Proof.Machine

/-! ### The bytes of a word (R8, R53) -/

theorem toNat_wordByte (v : Word) (j : Nat) : (wordByte v j).toNat = v.toNat / 2 ^ (8 * (3 - j)) % 2 ^ 8 := by
  rw [wordByte, BitVec.toNat_setWidth, BitVec.toNat_ushiftRight, Nat.shiftRight_eq_div_pow]

/-- Each byte of a word is the one it was built from. -/
theorem wordByte_be32 (b0 b1 b2 b3 : Byte) : wordByte (be32 b0 b1 b2 b3) 0 = b0 ∧ wordByte (be32 b0 b1 b2 b3) 1 = b1 ∧
    wordByte (be32 b0 b1 b2 b3) 2 = b2 ∧ wordByte (be32 b0 b1 b2 b3) 3 = b3 := by
  have h0 := b0.isLt
  have h1 := b1.isLt
  have h2 := b2.isLt
  have h3 := b3.isLt
  simp only [← BitVec.toNat_inj, toNat_wordByte, toNat_be32]
  omega

/-- A word is built from its bytes. -/
theorem be32_wordByte (w : Word) : be32 (wordByte w 0) (wordByte w 1) (wordByte w 2) (wordByte w 3) = w := by
  have hw := w.isLt
  simp only [← BitVec.toNat_inj, toNat_be32, toNat_wordByte]
  omega

/-- A byte of a number, taken on the number or on the word that holds it. -/
theorem ofNat_shiftRight_eq_wordByte (w : Word) (j : Nat) :
    BitVec.ofNat 8 (w.toNat >>> (8 * (3 - j))) = wordByte w j := by
  rw [← BitVec.toNat_inj, toNat_wordByte, BitVec.toNat_ofNat, Nat.shiftRight_eq_div_pow]

theorem bytesBE_toNat (w : Word) :
    bytesBE w.toNat 4 = [wordByte w 0, wordByte w 1, wordByte w 2, wordByte w 3] := by
  simp only [← ofNat_shiftRight_eq_wordByte]
  rfl

/-! ### Words read from a byte space (R52, R80) -/

/-- Reading a word loses none of the four bytes. -/
theorem wordByte_memRead4 (f : Nat → Byte) (addr : Nat) {j : Nat} (hj : j < 4) :
    wordByte (memRead4 f addr) j = f (addr + j) := by
  obtain ⟨h0, h1, h2, h3⟩ := wordByte_be32 (f addr) (f (addr + 1)) (f (addr + 2)) (f (addr + 3))
  match j, hj with
  | 0, _ => exact h0
  | 1, _ => exact h1
  | 2, _ => exact h2
  | 3, _ => exact h3

/-- Where the four bytes are those of a word, that word is read. -/
theorem memRead4_eq {f : Nat → Byte} {addr : Nat} {w : Word} (h : ∀ j, j < 4 → f (addr + j) = wordByte w j) :
    memRead4 f addr = w := by
  have h0 : f addr = wordByte w 0 := h 0 (by decide)
  rw [memRead4, h0, h 1 (by decide), h 2 (by decide), h 3 (by decide), be32_wordByte]

theorem toNat_memRead4 (f : Nat → Byte) (addr : Nat) : (memRead4 f addr).toNat =
    (f addr).toNat * 2 ^ 24 + (f (addr + 1)).toNat * 2 ^ 16 + (f (addr + 2)).toNat * 2 ^ 8 + (f (addr + 3)).toNat :=
  toNat_be32 ..

/-! ### `Blocks` (R80, R82) -/

theorem getElem?_block (p : List Byte) (b : Nat) {i : Nat} (hi : i < 16) : (block p b)[i]? = some (blockWord p b i) := by
  simp [block, hi]

/-- Byte `a` of a sequence is byte `a % 4` of its word in the block `a / 64`. -/
theorem getD_eq_wordByte_blockWord (p : List Byte) (a : Nat) :
    p.getD a 0#8 = wordByte (blockWord p (a / 64) (a % 64 / 4)) (a % 4) := by
  have hat : 64 * (a / 64) + 4 * (a % 64 / 4) + a % 4 = a := by omega
  rw [blockWord, wordByte_memRead4 _ _ (Nat.mod_lt _ (by decide)), hat]

/-- The blocks determine the bytes (R82). -/
theorem eq_of_block_eq {N : Nat} {p q : List Byte} (hp : p.length = 64 * N) (hq : q.length = 64 * N)
    (h : ∀ b, b < N → block p b = block q b) : p = q := by
  refine List.ext_getElem (hp.trans hq.symm) fun a hap haq => ?_
  have hword : blockWord p (a / 64) (a % 64 / 4) = blockWord q (a / 64) (a % 64 / 4) := by
    have hi : a % 64 / 4 < 16 := by omega
    have hb := congrArg (·[a % 64 / 4]?) (h (a / 64) (by omega))
    simpa only [getElem?_block _ _ hi, Option.some.injEq] using hb
  rw [← List.getD_eq_getElem p 0#8 hap, ← List.getD_eq_getElem q 0#8 haq, getD_eq_wordByte_blockWord, hword,
    ← getD_eq_wordByte_blockWord]

/-- The byte sequence of `N` blocks, word `i` of block `b` being `f b i`: the inverse of `Blocks` (R82). -/
def bytesOfBlocks (N : Nat) (f : Nat → Nat → Word) : List Byte :=
  (List.range (64 * N)).map fun a => wordByte (f (a / 64) (a % 64 / 4)) (a % 4)

@[simp] theorem length_bytesOfBlocks (N : Nat) (f : Nat → Nat → Word) : (bytesOfBlocks N f).length = 64 * N := by
  simp [bytesOfBlocks]

theorem getD_bytesOfBlocks (f : Nat → Nat → Word) {N b i j : Nat} (hb : b < N) (hi : i < 16) (hj : j < 4) :
    (bytesOfBlocks N f).getD (64 * b + 4 * i + j) 0#8 = wordByte (f b i) j := by
  have hat : 64 * b + 4 * i + j < 64 * N := by omega
  have hblock : (64 * b + 4 * i + j) / 64 = b := by omega
  have hword : (64 * b + 4 * i + j) % 64 / 4 = i := by omega
  have hbyte : (64 * b + 4 * i + j) % 4 = j := by omega
  simp [bytesOfBlocks, hat, hblock, hword, hbyte]

theorem blockWord_bytesOfBlocks (f : Nat → Nat → Word) {N b i : Nat} (hb : b < N) (hi : i < 16) :
    blockWord (bytesOfBlocks N f) b i = f b i :=
  memRead4_eq fun _ => getD_bytesOfBlocks f hb hi

/-- Settles O21: the bytes of a word and back, `Blocks` injective by `eq_of_block_eq` and onto by `bytesOfBlocks`. -/
theorem blocksAreABijection : Obligations.BlocksAreABijection := by
  refine ⟨wordByte_be32, fun w => ⟨bytesBE_toNat w, be32_wordByte w⟩, fun N p q => eq_of_block_eq, fun N f => ?_⟩
  refine ⟨bytesOfBlocks N f, length_bytesOfBlocks N f, fun b i hb hi => ?_⟩
  rw [getElem?_block _ _ hi, blockWord_bytesOfBlocks f hb hi]

/-! ### What LOAD writes to `W` (R81) -/

theorem getElem_loadedSchedule_low (s : State) {i : Nat} (h : i < 16) :
    s.loadedSchedule[i] = memRead4 s.pmemByte (64 * s.blk + 4 * i) := by
  simp [State.loadedSchedule, h]

theorem getElem_loadedSchedule_high (s : State) {i : Nat} (hi : i < 64) (h : 16 ≤ i) : s.loadedSchedule[i] = s.w[i] := by
  simp [State.loadedSchedule, Nat.not_lt.mpr h]

/-- Settles O22: the sixteen words read and those kept, and the block that the bytes in `PMEM` make. -/
theorem loadReadsBlock : Obligations.LoadReadsBlock := by
  intro s
  refine ⟨_, exec_load s, fun i hi => ?read, fun i hi => getElem_loadedSchedule_high s hi, rfl, rfl, rfl,
    fun p hpmem hlen hblk i => loadedSchedule_getElem? hpmem hlen hblk⟩
  case read => rw [getElem_loadedSchedule_low s hi, toNat_memRead4]

end Sys2Proof.Machine
end

section
/-! The message schedule (R83 to R87): its mixing functions, one EXPAND and the 48 of a block, the digest invariant along
every step, and with them the obligations of spec/43_schedule_expander.md. -/

namespace Sys2Proof.Machine

/-! ### The digest invariant along every step (R87, R98, R111) -/

/-- The correspondence speaks of the core alone. -/
theorem tracks_of_sameCore {s t : State} {m : List Byte} (h : s.sameCore t) (ht : Tracks s m) : Tracks t m := by
  unfold State.sameCore at h
  rw [← h]
  exact ⟨ht.legal, ht.message, ht.padding, ht.padded, ht.inBlock, ht.expand, ht.initv, ht.round, ht.accum, ht.finished,
    ht.done⟩

theorem digestInvariant_of_sameCore {s t : State} (h : s.sameCore t) (hd : DigestInvariant s) : DigestInvariant t := by
  obtain ⟨-, -, hphase⟩ := output_of_sameCore h
  exact hd.imp hphase.trans fun ⟨m, ht⟩ => ⟨m, tracks_of_sameCore h ht⟩

theorem coreStep_keeps_digestInvariant {s t : State} (hd : DigestInvariant s) (h : coreStep s = .next t) :
    DigestInvariant t := by
  obtain ⟨-, -, -, hidle⟩ := coreStep_keeps_message h
  exact hd.imp hidle fun ⟨m, ht⟩ => ⟨m, coreStep_keeps_tracks ht h⟩

/-- Settles O53: a RESET leads to `IDLE`, an effective START to a run on its own message, and every other step keeps the
correspondence with the message held. -/
theorem digestInvariantIsKept : Obligations.DigestInvariantIsKept := by
  intro s t hd h
  rcases step_next_cases h with ⟨-, rest, rfl⟩ | ⟨-, rest, m, rfl⟩ | hcore | ⟨l, hl⟩
  · exact .inl (State.resetTo_phase _)
  · exact .inr ⟨m, tracks_beginMessage m _⟩
  · exact digestInvariant_of_sameCore hcore hd
  · exact coreStep_keeps_digestInvariant (digestInvariant_of_sameCore (sameCore_withScript s l) hd) hl

/-! ### The mixing functions (R83) -/

theorem rotr_xor (x y : Word) {n : Nat} (h : n < 32) : rotr (x ^^^ y) n = rotr x n ^^^ rotr y n := by
  refine BitVec.eq_of_getLsbD_eq fun i hi => ?_
  simp only [BitVec.getLsbD_xor, getLsbD_rotr _ h hi]

theorem shr_xor (x y : Word) (n : Nat) : shr (x ^^^ y) n = shr x n ^^^ shr y n :=
  BitVec.ushiftRight_xor_distrib x y n

theorem smallSigma0_eq (x : Word) : smallSigma0 x = x.rotateRight 7 ^^^ x.rotateRight 18 ^^^ x >>> 3 := by
  rw [smallSigma0, rotr_eq_rotateRight x (by decide), rotr_eq_rotateRight x (by decide), shr]

theorem smallSigma1_eq (x : Word) : smallSigma1 x = x.rotateRight 17 ^^^ x.rotateRight 19 ^^^ x >>> 10 := by
  rw [smallSigma1, rotr_eq_rotateRight x (by decide), rotr_eq_rotateRight x (by decide), shr]

/-- Exclusive or regrouped, so that the terms of two sums of three pair up. -/
theorem xor_three_xor (a b c d e f : Word) :
    (a ^^^ d) ^^^ (b ^^^ e) ^^^ (c ^^^ f) = (a ^^^ b ^^^ c) ^^^ (d ^^^ e ^^^ f) := by
  ac_rfl

theorem smallSigma0_xor (x y : Word) : smallSigma0 (x ^^^ y) = smallSigma0 x ^^^ smallSigma0 y := by
  simp only [smallSigma0, rotr_xor x y (n := 7) (by decide), rotr_xor x y (n := 18) (by decide), shr_xor, xor_three_xor]

theorem smallSigma1_xor (x y : Word) : smallSigma1 (x ^^^ y) = smallSigma1 x ^^^ smallSigma1 y := by
  simp only [smallSigma1, rotr_xor x y (n := 17) (by decide), rotr_xor x y (n := 19) (by decide), shr_xor, xor_three_xor]

/-- Settles O23: rotations by `rotr_eq_rotateRight`, linear because each of the three terms is. -/
theorem scheduleMixingFunctions : Obligations.ScheduleMixingFunctions :=
  ⟨fun x => ⟨smallSigma0_eq x, smallSigma1_eq x⟩, fun x y => ⟨smallSigma0_xor x y, smallSigma1_xor x y⟩,
    by decide, by decide⟩

/-! ### One EXPAND (R86) -/

section
variable {s : State}

/-- A tap within `W`. -/
theorem schedule_eq_getElem {d : Nat} (hd : d ≤ s.t.toNat) (ht : s.t.toNat ≤ 63) :
    s.schedule d = s.w[s.t.toNat - d] := by
  have hread := w_getElem?_eq_schedule hd ht
  rw [Vector.getElem?_eq_getElem (by omega)] at hread
  exact (Option.some.inj hread).symm

/-- The word EXPAND writes, from its four taps (R84). -/
theorem expandWord_eq (hlow : 16 ≤ s.t.toNat) (hhigh : s.t.toNat ≤ 63) : s.expandWord =
    smallSigma1 s.w[s.t.toNat - 2] + s.w[s.t.toNat - 7] + smallSigma0 s.w[s.t.toNat - 15] + s.w[s.t.toNat - 16] := by
  have htap := fun d (hd : d ≤ 16) => schedule_eq_getElem (s := s) (hd.trans hlow) hhigh
  rw [State.expandWord, htap 2 (by decide), htap 7 (by decide), htap 15 (by decide), htap 16 (by decide)]
  rfl

theorem afterExpand_eq (t : BitVec 7) : afterExpand t = if t.toNat = 63 then Phase.initv else Phase.expand := by
  simp only [afterExpand, ← BitVec.toNat_inj]
  rfl

end

/-- Settles O24: the word by `expandWord_eq`, and `T` does not wrap in its range. -/
theorem expandComputesWord : Obligations.ExpandComputesWord := by
  intro s hlow hhigh
  refine ⟨_, exec_expand s, fun i hi => ?word, toNat_succ_t hhigh, afterExpand_eq s.t, rfl⟩
  case word => simp only [Vector.getElem_setIfInBounds, eq_comm (a := s.t.toNat), expandWord_eq hlow hhigh]

/-! ### LOAD and the 48 EXPAND steps of a block (R87) -/

section
variable {s t u : State}

/-- The two states differ at most in what LOAD and EXPAND write: `W`, `T` and `PHASE`. -/
def State.sameButSchedule (s t : State) : Prop := { t with w := s.w, t := s.t, phase := s.phase } = s

theorem State.sameButSchedule.trans (h : s.sameButSchedule t) (h' : t.sameButSchedule u) : s.sameButSchedule u := by
  unfold State.sameButSchedule at h h' ⊢
  rw [← h, ← h']

/-- The first `T` words of the schedule of the block `b` are in `W`, and EXPAND computes the next one. -/
def State.expands (s : State) (b : List Word) : Prop :=
  s.phase = Phase.expand ∧ 16 ≤ s.t.toNat ∧ s.t.toNat ≤ 63 ∧
    ∀ i, i < s.t.toNat → s.w[i]? = (extend b (s.t.toNat - 16))[i]?

/-- The whole schedule of the block `b` is in `W`. -/
def State.expanded (s : State) (b : List Word) : Prop :=
  s.w.toList = expandBlock b ∧ s.t = 64#7 ∧ s.phase = Phase.initv

/-- One EXPAND adds a word, and after `T = 63` the schedule is whole. -/
theorem exec_expand_expands {b : List Word} (hb : b.length = 16) (he : s.expands b) :
    ∃ t, exec .expand s = .next t ∧ s.sameButSchedule t ∧ t.script = s.script ∧
      (s.t.toNat = 63 ∧ t.expanded b ∨ t.t.toNat = s.t.toNat + 1 ∧ t.expands b) := by
  obtain ⟨-, hlow, hhigh, hw⟩ := he
  have hnew := fun i => expanded_getElem? (i := i) hb hlow hhigh hw
  have hcount := toNat_succ_t hhigh
  refine ⟨_, exec_expand s, rfl, rfl, ?_⟩
  by_cases hlast : s.t.toNat = 63
  · have hwords : s.t.toNat + 1 - 16 = 48 := by omega
    rw [hwords, hlast] at hnew
    have ht : s.t = 63#7 := BitVec.eq_of_toNat_eq hlast
    refine .inl ⟨hlast, toList_eq_expandBlock hb ?_, succ_t_of_last ht, if_pos ht⟩
    dsimp only
    rw [hlast]
    exact hnew
  · refine .inr ⟨hcount, (afterExpand_eq s.t).trans (if_neg hlast), ?_⟩
    dsimp only
    rw [hcount]
    exact ⟨by omega, by omega, hnew⟩

theorem step_of_script_nil_of_decode {i : Instr} (hs : s.script = []) (hd : decodePhase s.phase = .ok i) :
    step s = exec i s := (step_of_script_nil hs).trans (coreStep_of_decode hd)

/-- The EXPAND steps still to take make the schedule whole. -/
theorem runSteps_expand {b : List Word} (hb : b.length = 16) {n : Nat} (hs : s.script = []) (he : s.expands b)
    (hn : s.t.toNat + n = 64) : ∃ t, runSteps n s = .next t ∧ t.expanded b ∧ s.sameButSchedule t := by
  induction n generalizing s with
  | zero =>
    obtain ⟨-, -, hhigh, -⟩ := he
    omega
  | succ n ih =>
    obtain ⟨u, hu, hsame, hscript, hnext⟩ := exec_expand_expands hb he
    have hstep : step s = .next u := (step_of_script_nil_of_decode hs (by rw [he.1, decodePhase_expand])).trans hu
    rw [runSteps_succ hstep]
    rcases hnext with ⟨hlast, hdone⟩ | ⟨hcount, hmore⟩
    · obtain rfl : n = 0 := by omega
      exact ⟨u, rfl, hdone, hsame⟩
    · obtain ⟨t, hrun, hdone, hsame'⟩ := ih (hscript.trans hs) hmore (by omega)
      exact ⟨t, hrun, hdone, hsame.trans hsame'⟩

/-- LOAD puts the first sixteen words of the schedule there, whatever `W` held (R81). -/
theorem exec_load_expands {p : List Byte} (hpmem : s.pmem = Memory.ofBytes p) (hlen : p.length = 64 * s.nblk)
    (hblk : s.blk < s.nblk) :
    ∃ t, exec .load s = .next t ∧ t.expands (block p s.blk) ∧ t.t = 16#7 ∧ s.sameButSchedule t ∧ t.script = s.script :=
  ⟨_, exec_load s, ⟨rfl, by simp, by simp, fun _ => loadedSchedule_getElem? hpmem hlen hblk⟩, rfl, rfl, rfl⟩

end

/-- Settles O25: LOAD gives the first sixteen words, and each of the 48 EXPAND steps one more. -/
theorem blockScheduleIsExpanded : Obligations.BlockScheduleIsExpanded := by
  intro s p hs hp hpmem hlen hblk
  obtain ⟨u, hu, hexpands, ht, hsame, hscript⟩ := exec_load_expands hpmem hlen hblk
  have hstep : step s = .next u := (step_of_script_nil_of_decode hs (by rw [hp, decodePhase_load])).trans hu
  obtain ⟨t, hrun, ⟨hw, ht', hp'⟩, hsame'⟩ :=
    runSteps_expand (length_block _ _) (hscript.trans hs) hexpands (n := 48) (by rw [ht]; rfl)
  exact ⟨t, (runSteps_succ hstep 48).trans hrun, hw, ht', hp', hsame.trans hsame'⟩

end Sys2Proof.Machine
end

section
/-! The compression of one block (R90 to R98): the round functions, one operation of the unit at a time, the 66 steps of a
block, and who writes the hash state; with them the obligations of spec/44_compression.md. -/

namespace Sys2Proof.Machine

/-! ### The round functions (R90) -/

theorem bigSigma0_eq (x : Word) : bigSigma0 x = x.rotateRight 2 ^^^ x.rotateRight 13 ^^^ x.rotateRight 22 := by
  rw [bigSigma0, rotr_eq_rotateRight x (by decide), rotr_eq_rotateRight x (by decide),
    rotr_eq_rotateRight x (by decide)]

theorem bigSigma1_eq (x : Word) : bigSigma1 x = x.rotateRight 6 ^^^ x.rotateRight 11 ^^^ x.rotateRight 25 := by
  rw [bigSigma1, rotr_eq_rotateRight x (by decide), rotr_eq_rotateRight x (by decide),
    rotr_eq_rotateRight x (by decide)]

/-- `Ch` selects, bit by bit; beyond the word's end both sides are 0. -/
theorem getLsbD_ch (e f g : Word) (i : Nat) :
    (ch e f g).getLsbD i = if e.getLsbD i then f.getLsbD i else g.getLsbD i := by
  rw [ch, not32_eq_not, BitVec.getLsbD_xor, BitVec.getLsbD_and, BitVec.getLsbD_and, BitVec.getLsbD_not]
  by_cases hi : i < 32
  · cases e.getLsbD i <;> simp [hi]
  · simp [BitVec.getLsbD_of_ge _ i (Nat.le_of_not_lt hi)]

/-- No bit is selected from both words, so the exclusive or is an or. -/
theorem ch_eq_or (e f g : Word) : ch e f g = (e &&& f) ||| (~~~e &&& g) := by
  refine BitVec.eq_of_getLsbD_eq fun i hi => ?_
  rw [getLsbD_ch, BitVec.getLsbD_or, BitVec.getLsbD_and, BitVec.getLsbD_and, BitVec.getLsbD_not]
  cases e.getLsbD i <;> simp [hi]

/-- `Maj` is 1 where at least two of the three words are: the eight rows of its table. -/
theorem getLsbD_maj_iff (a b c : Word) (i : Nat) : (maj a b c).getLsbD i = true ↔
    2 ≤ (a.getLsbD i).toNat + (b.getLsbD i).toNat + (c.getLsbD i).toNat := by
  simp only [maj, BitVec.getLsbD_xor, BitVec.getLsbD_and]
  cases a.getLsbD i <;> cases b.getLsbD i <;> cases c.getLsbD i <;> decide

/-- Settles O26: rotations by `rotr_eq_rotateRight`, select and majority by their bits. -/
theorem roundMixingFunctions : Obligations.RoundMixingFunctions :=
  ⟨fun x => ⟨bigSigma0_eq x, bigSigma1_eq x⟩, getLsbD_ch, ch_eq_or, getLsbD_maj_iff⟩

/-! ### One operation of the unit (R92 to R94) -/

/-- Settles O27: each element as `exec_initv` gives it. -/
theorem initvLoadsWorkingVariables : Obligations.InitvLoadsWorkingVariables :=
  fun s => ⟨_, exec_initv s, rfl, rfl, rfl, rfl, rfl, rfl, rfl, rfl, rfl, rfl, rfl⟩

theorem afterRound_eq (t : BitVec 7) : afterRound t = if t.toNat = 63 then Phase.accum else Phase.round := by
  simp only [afterRound, ← BitVec.toNat_inj]
  rfl

/-- ROUND with `T` in its range: both reads are of what the spec names. -/
theorem exec_round_of_le {s : State} (ht : s.t.toNat ≤ 63) : exec .round s = .next { s with
    vars := roundFn s.vars (romK.getD s.t.toNat 0#32) s.w[s.t.toNat], t := s.t + 1#7, phase := afterRound s.t } := by
  have hw : s.schedule 0 = s.w[s.t.toNat] := schedule_eq_getElem (Nat.zero_le _) ht
  rw [exec_round, roundConst_eq_getD ht, hw]

/-- Settles O28: the round function read out variable by variable, and `T` does not wrap in its range. -/
theorem roundMixesWorkingVariables : Obligations.RoundMixesWorkingVariables := fun s ht =>
  ⟨_, _, _, exec_round_of_le ht, rfl, rfl, rfl, rfl, rfl, rfl, rfl, rfl, rfl, rfl, toNat_succ_t ht, afterRound_eq s.t, rfl⟩

theorem getElem_addVars (hin : Vector Word 8) (v : WorkVars) {i : Nat} (hi : i < 8) :
    (addVars hin v)[i] = add32 hin[i] ([v.a, v.b, v.c, v.d, v.e, v.f, v.g, v.h].getD i 0#32) := by
  interval_cases i <;> rfl

/-- Settles O29: the eight sums by `getElem_addVars`, each modulo `2^32` by `toNat_add32`. -/
theorem accumAddsIntoHashState : Obligations.AccumAddsIntoHashState := by
  intro s
  refine ⟨_, exec_accum s, fun i hi => ?sum, rfl, rfl, rfl⟩
  case sum => rw [getElem_addVars _ _ hi, toNat_add32]

/-! ### INITV, the 64 ROUND steps and ACCUM of a block (R98) -/

section
variable {s t u : State}

/-- The two states differ at most in what INITV and ROUND write: `a..h`, `T` and `PHASE`. -/
def State.sameButRounds (s t : State) : Prop := { t with vars := s.vars, t := s.t, phase := s.phase } = s

theorem State.sameButRounds.trans (h : s.sameButRounds t) (h' : t.sameButRounds u) : s.sameButRounds u := by
  unfold State.sameButRounds at h h' ⊢
  rw [← h, ← h']

/-- What ACCUM reads beside `a..h` is kept, and the script. -/
theorem State.sameButRounds.keeps (h : s.sameButRounds t) :
    t.h = s.h ∧ t.w = s.w ∧ t.blk = s.blk ∧ t.nblk = s.nblk ∧ t.script = s.script := by
  unfold State.sameButRounds at h
  rw [← h]
  exact ⟨rfl, rfl, rfl, rfl, rfl⟩

theorem State.sameButRounds.script_nil (h : s.sameButRounds t) (hs : s.script = []) : t.script = [] := by
  obtain ⟨-, -, -, -, hscript⟩ := h.keeps
  exact hscript.trans hs

/-- `T` rounds of the compression of `W` into `H` are done, and the next one is to come. -/
def State.inRounds (s : State) : Prop :=
  s.phase = Phase.round ∧ s.t.toNat ≤ 63 ∧ s.vars = roundsUpTo s.h s.w.toList s.t.toNat

/-- All 64 rounds are done. -/
def State.roundsDone (s : State) : Prop := s.phase = Phase.accum ∧ s.vars = roundsUpTo s.h s.w.toList 64

/-- INITV begins the rounds, with none done, whatever `a..h` and `T` held (R92). -/
theorem exec_initv_inRounds : ∃ t, exec .initv s = .next t ∧ s.sameButRounds t ∧ t.t = 0#7 ∧ t.inRounds :=
  ⟨_, exec_initv s, rfl, rfl, rfl, Nat.zero_le 63, rfl⟩

/-- One ROUND makes one more round done, and after `T = 63` all are (R91, R96). -/
theorem exec_round_inRounds (hr : s.inRounds) : ∃ t, exec .round s = .next t ∧ s.sameButRounds t ∧
    (s.t.toNat = 63 ∧ t.roundsDone ∨ t.t.toNat = s.t.toNat + 1 ∧ t.inRounds) := by
  obtain ⟨-, ht, hvars⟩ := hr
  have hnew : roundFn s.vars s.roundConst (s.schedule 0) = roundsUpTo s.h s.w.toList (s.t.toNat + 1) := by
    rw [roundsUpTo, ← hvars, roundConst_eq_getD ht, schedule_zero_eq_getD ht]
  have hcount := toNat_succ_t ht
  refine ⟨_, exec_round s, rfl, ?_⟩
  by_cases hlast : s.t.toNat = 63
  · rw [hlast] at hnew
    exact .inl ⟨hlast, (afterRound_eq s.t).trans (if_pos hlast), hnew⟩
  · refine .inr ⟨hcount, (afterRound_eq s.t).trans (if_neg hlast), ?_⟩
    dsimp only
    rw [hcount]
    exact ⟨by omega, hnew⟩

/-- The ROUND steps still to take make all 64 rounds done. -/
theorem runSteps_round {n : Nat} (hs : s.script = []) (hr : s.inRounds) (hn : s.t.toNat + n = 64) :
    ∃ t, runSteps n s = .next t ∧ t.roundsDone ∧ s.sameButRounds t := by
  induction n generalizing s with
  | zero =>
    obtain ⟨-, ht, -⟩ := hr
    omega
  | succ n ih =>
    obtain ⟨u, hu, hsame, hnext⟩ := exec_round_inRounds hr
    have hp : s.phase = Phase.round := hr.1
    have hstep : step s = .next u := (step_of_script_nil_of_decode hs (by rw [hp, decodePhase_round])).trans hu
    rw [runSteps_succ hstep]
    rcases hnext with ⟨hlast, hdone⟩ | ⟨hcount, hmore⟩
    · obtain rfl : n = 0 := by omega
      exact ⟨u, rfl, hdone, hsame⟩
    · obtain ⟨t, hrun, hdone, hsame'⟩ := ih (hsame.script_nil hs) hmore (by omega)
      exact ⟨t, hrun, hdone, hsame.trans hsame'⟩

/-- INITV and the 64 ROUND steps after it. -/
theorem runSteps_initv_rounds (hs : s.script = []) (hp : s.phase = Phase.initv) :
    ∃ t, runSteps 65 s = .next t ∧ t.roundsDone ∧ s.sameButRounds t := by
  obtain ⟨u, hu, hsame, ht, hrounds⟩ := exec_initv_inRounds (s := s)
  have hstep : step s = .next u := (step_of_script_nil_of_decode hs (by rw [hp, decodePhase_initv])).trans hu
  obtain ⟨t, hrun, hdone, hsame'⟩ := runSteps_round (hsame.script_nil hs) hrounds (n := 64) (by rw [ht]; rfl)
  exact ⟨t, (runSteps_succ hstep 64).trans hrun, hdone, hsame.trans hsame'⟩

/-- ACCUM after the 64 rounds gives the compression of `W` into `H` (R96). -/
theorem step_accum_compresses (hs : s.script = []) (hr : s.roundsDone) : step s = .next { s with
    h := compress s.h s.w.toList, blk := s.blk + 1, phase := afterAccum s.blk s.nblk } := by
  obtain ⟨hp, hvars⟩ := hr
  rw [step_of_script_nil_of_decode hs (by rw [hp, decodePhase_accum]), exec_accum, hvars, compress]

end

/-- Settles O30: INITV and the rounds leave `H`, `W`, `BLK` and `NBLK`, from which ACCUM gives the compression. -/
theorem blockIsCompressed : Obligations.BlockIsCompressed := by
  intro s hs hp
  obtain ⟨u, hrun, hdone, hsame⟩ := runSteps_initv_rounds hs hp
  have hstep := step_accum_compresses (hsame.script_nil hs) hdone
  obtain ⟨hh, hw, hblk, hnblk, -⟩ := hsame.keeps
  rw [hh, hw, hblk, hnblk] at hstep
  refine ⟨_, (runSteps_add hrun 1).trans (runSteps_succ hstep 0), rfl, rfl, rfl, fun p hchain hexpand => ?chain, ?frame⟩
  case chain => rw [chain, ← hchain, ← hexpand]
  case frame =>
    rw [← hh, ← hw, ← hblk, ← hnblk]
    exact hsame

/-! ### Who writes the hash state (R95) -/

theorem h_of_sameCore {s t : State} (h : s.sameCore t) : t.h = s.h := by
  unfold State.sameCore at h
  rw [← h]

/-- ACCUM alone of the core's operations writes `H` (R94, R95). -/
theorem coreStep_h_cases {s t : State} (h : coreStep s = .next t) :
    t.h = s.h ∨ s.phase = Phase.accum ∧ t.h = addVars s.h s.vars ∧ t.blk = s.blk + 1 := by
  rcases coreStep_cases s with ⟨-, hs⟩ | ⟨-, hs⟩ | ⟨-, hs⟩ | ⟨-, hs⟩ | ⟨-, hs⟩ | ⟨hp, hs⟩ | ⟨-, hs⟩ | ⟨-, hs⟩ <;>
    obtain rfl := Host.Outcome.next.inj (hs.symm.trans h)
  pick_goal 6
  · exact .inr ⟨hp, rfl, rfl⟩
  all_goals exact .inl rfl

/-- Settles O31: RESET and an effective START restart the core, and of the core's own steps ACCUM alone writes `H`. -/
theorem hashStateWriters : Obligations.HashStateWriters := by
  intro s t h
  rcases step_next_cases h with ⟨hr, -⟩ | ⟨hr, -⟩ | hcore | ⟨l, hl⟩
  · exact .inr (.inl hr)
  · exact .inr (.inl hr)
  · exact .inl (h_of_sameCore hcore)
  · exact (coreStep_h_cases hl).imp id .inr

end Sys2Proof.Machine
end

section
/-! The digest formatter, FORMAT (R100, R101), and the obligations of spec/45_digest_formatter.md. -/

namespace Sys2Proof.Machine

/-- The bytes of word `i` stand at `4i..4i+3`, most significant first (R53). -/
theorem getElem_digestOf_word (h : Vector Word 8) {i j : Nat} (hi : i < 8) (hj : j < 4) :
    (digestOf h)[4 * i + j] = wordByte h[i] j := by
  have hword : (4 * i + j) / 4 = i := by omega
  have hbyte : (4 * i + j) % 4 = j := by omega
  simp only [getElem_digestOf, hword, hbyte]

theorem statusOf_done : statusOf Phase.done = 0x28#8 := by decide

/-- Settles O32: `exec_format` gives the state after FORMAT; each digest byte is the number of a byte of its word, and the
characters are the digits of `hexOf`. -/
theorem formatSerialisesHashState : Obligations.FormatSerialisesHashState := by
  intro s
  refine ⟨_, exec_format s, fun i j hi hj => ?bytes, hexFormat.1 (digestOf s.h), rfl, statusOf_done, rfl⟩
  case bytes => exact (congrArg BitVec.toNat (getElem_digestOf_word s.h hi hj)).trans (toNat_wordByte s.h[i] j)

end Sys2Proof.Machine
end

section
/-! The host's commands and reads (R107 to R110), and a run of the core while the host goes on moving (R111): how many of
its steps are still to come, and what they leave on show; with them the obligations of spec/46_host_commands.md. -/

namespace Sys2Proof.Machine

/-! ### NOP, the reserved code and the reads (R107 to R110) -/

/-- Settles O39: the meaning of either command is the state it is given. -/
theorem nopAndReservedCodeChangeNothing : Obligations.NopAndReservedCodeChangeNothing :=
  fun s => ⟨exec_nop s, exec_rsvd s⟩

/-- Settles O40: `exec_rdstatus`, with the reply and `STATUS` written out. -/
theorem readStatusReturnsStatus : Obligations.ReadStatusReturnsStatus := exec_rdstatus

theorem replyDigest_of_done {s : State} (hp : s.phase = Phase.done) : s.replyDigest = s.reply (.digest s.digest) :=
  if_pos ((phaseDone_iff s.phase).mpr hp)

theorem replyDigest_of_ne_done {s : State} (hp : s.phase ≠ Phase.done) :
    s.replyDigest = (s.reply (.digest (Config.freeDigestRead s.draws))).countDraw :=
  if_neg (by simp [isDone_eq_false_iff.mpr hp])

theorem replyHex_of_ne_done {s : State} (hp : s.phase ≠ Phase.done) :
    s.replyHex = (s.reply (.hex (Config.freeHexRead s.draws))).countDraw :=
  if_neg (by simp [isDone_eq_false_iff.mpr hp])

/-- Settles O41: in `DONE` the reply is the stored digest, in every other phase a draw. -/
theorem readDigestReturnsDigest : Obligations.ReadDigestReturnsDigest := by
  intro s
  by_cases hp : s.phase = Phase.done
  · exact ⟨_, s.digest, (exec_rddigest s).trans (congrArg _ (replyDigest_of_done hp)), rfl, fun _ => ⟨rfl, rfl⟩, rfl⟩
  · exact ⟨_, Config.freeDigestRead s.draws, (exec_rddigest s).trans (congrArg _ (replyDigest_of_ne_done hp)), rfl,
      fun h => absurd h hp, rfl⟩

/-- Settles O42: in `DONE` the reply is the stored characters, in every other phase a draw. -/
theorem readHexReturnsHex : Obligations.ReadHexReturnsHex := by
  intro s
  by_cases hp : s.phase = Phase.done
  · exact ⟨_, s.hex, (exec_rdhex s).trans (congrArg _ (replyHex_of_done hp)), rfl, fun _ => ⟨rfl, rfl⟩, rfl⟩
  · exact ⟨_, Config.freeHexRead s.draws, (exec_rdhex s).trans (congrArg _ (replyHex_of_ne_done hp)), rfl,
      fun h => absurd h hp, rfl⟩

section
variable {s t : State} {m : List Byte}

/-! ### What the steps left say of a run -/

theorem Tracks.stepsLeft_eq_zero_iff (ht : Tracks s m) : s.stepsLeft = 0 ↔ s.phase = Phase.done :=
  ⟨ht.phase_done, fun hp => stepsLeft_of_not_busy (by rw [State.busy, hp]; rfl)⟩

/-- The core is busy as long as steps are left. -/
theorem Tracks.busy_iff (ht : Tracks s m) : s.busy = true ↔ 0 < s.stepsLeft := by
  constructor
  · intro hb
    by_contra hzero
    have hp : s.phase = Phase.done := ht.phase_done (by omega)
    rw [State.busy, hp] at hb
    exact absurd hb (by decide)
  · intro hpos
    exact ht.legal.resolve_right (by simp [isDone_eq_false_of_stepsLeft_pos hpos])

/-- At the start of a run all its steps are left. -/
theorem Tracks.stepsLeft_at_start (ht : Tracks s m) (hp : s.phase = Phase.pad) :
    s.stepsLeft = 2 + 115 * ((m.length + 8) / 64 + 1) := by
  obtain ⟨-, hlen⟩ := ht.message
  rw [stepsLeft_of_pad hp, hlen, blockCount_eq]

/-- A step of the core takes one off the steps left, down to none. -/
theorem coreStep_stepsLeft_of_tracks (ht : Tracks s m) (h : coreStep s = .next t) : t.stepsLeft = s.stepsLeft - 1 := by
  cases hb : s.busy with
  | true =>
    have hleft := coreStep_stepsLeft (rangeInvariant_of_tracks ht) hb h
    omega
  | false =>
    obtain rfl := Host.Outcome.next.inj ((coreStep_of_not_busy hb).symm.trans h)
    rw [stepsLeft_of_not_busy hb]

/-- A run in which the host makes no move, to its end and beyond. -/
theorem runSteps_of_script_nil {k : Nat} (ht : Tracks s m) (hs : s.script = []) :
    ∃ t, runSteps k s = .next t ∧ Tracks t m ∧ t.stepsLeft = s.stepsLeft - k := by
  induction k generalizing s with
  | zero => exact ⟨s, rfl, ht, rfl⟩
  | succ k ih =>
    obtain ⟨u, hu, hscript, -⟩ := coreStep_next s
    have hleft := coreStep_stepsLeft_of_tracks ht hu
    obtain ⟨t, hrun, htt, hlt⟩ := ih (coreStep_keeps_tracks ht hu) (hscript.trans hs)
    exact ⟨t, (runSteps_succ ((step_of_script_nil hs).trans hu) k).trans hrun, htt, by omega⟩

/-! ### The steps left determine `PHASE` -/

/-- The phase of a block in work with `left` of its 115 steps to come. -/
def blockPhaseWithStepsLeft (left : Nat) : BitVec 4 :=
  if left = 115 then Phase.load
  else if 67 ≤ left then Phase.expand
  else if left = 66 then Phase.initv
  else if 2 ≤ left then Phase.round
  else Phase.accum

/-- The phase of a run over `blocks` blocks with `left` steps to come. -/
def phaseWithStepsLeft (blocks left : Nat) : BitVec 4 :=
  if left = 0 then Phase.done
  else if left = 1 then Phase.format
  else if left = 2 + 115 * blocks then Phase.pad
  else blockPhaseWithStepsLeft ((left - 2) % 115 + 1)

theorem phaseWithStepsLeft_in_block {blocks later left : Nat} (hlater : later < blocks) (hpos : 0 < left)
    (hleft : left ≤ 115) : phaseWithStepsLeft blocks (1 + 115 * later + left) = blockPhaseWithStepsLeft left := by
  rw [phaseWithStepsLeft, if_neg (by omega), if_neg (by omega), if_neg (by omega)]
  congr 1
  omega

theorem phaseInBlock_cases {p : BitVec 4} (h : phaseInBlock p = true) :
    p = Phase.load ∨ p = Phase.expand ∨ p = Phase.initv ∨ p = Phase.round ∨ p = Phase.accum := by
  simpa [phaseInBlock, or_assoc] using h

/-- In its range (R27) `T` tells the phases of a block apart by the steps left. -/
theorem phase_of_blockStepsLeft (hr : RangeInvariant s) (hp : phaseInBlock s.phase = true) :
    s.phase = blockPhaseWithStepsLeft s.blockStepsLeft ∧ 0 < s.blockStepsLeft ∧ s.blockStepsLeft ≤ 115 := by
  rcases phaseInBlock_cases hp with h | h | h | h | h
  · simp [State.blockStepsLeft, h, blockPhaseWithStepsLeft]
  · obtain ⟨hlow, hhigh⟩ := hr.expand h
    have hleft : s.blockStepsLeft = 66 + (64 - s.t.toNat) := by simp +decide [State.blockStepsLeft, h]
    rw [hleft, h, blockPhaseWithStepsLeft, if_neg (by omega), if_pos (by omega)]
    exact ⟨rfl, by omega, by omega⟩
  · simp +decide [State.blockStepsLeft, h, blockPhaseWithStepsLeft]
  · have hhigh := hr.round h
    have hleft : s.blockStepsLeft = 1 + (64 - s.t.toNat) := by simp +decide [State.blockStepsLeft, h]
    rw [hleft, h, blockPhaseWithStepsLeft, if_neg (by omega), if_neg (by omega), if_neg (by omega), if_pos (by omega)]
    exact ⟨rfl, by omega, by omega⟩
  · simp +decide [State.blockStepsLeft, h, blockPhaseWithStepsLeft]

theorem stepsLeft_of_phaseInBlock (hp : phaseInBlock s.phase = true) :
    s.stepsLeft = 1 + 115 * (s.nblk - (s.blk + 1)) + s.blockStepsLeft := by
  have hne : s.phase ≠ Phase.pad := fun h => absurd (h ▸ hp) (by decide)
  rw [State.stepsLeft, if_neg hne, if_pos hp]

theorem Tracks.phase_of_not_inBlock (ht : Tracks s m) (hp : phaseInBlock s.phase = false) :
    s.phase = Phase.pad ∨ s.phase = Phase.format ∨ s.phase = Phase.done := by
  rcases ht.legal with hb | hd
  · rcases (phaseBusy_iff s.phase).mp hb with h | h | h | h | h | h | h <;> simp +decide [h] at hp ⊢
  · exact .inr (.inr ((phaseDone_iff s.phase).mp hd))

/-- Where a run is shows in the number of its steps to come, and in nothing else the core held before (R111). -/
theorem Tracks.phase_eq (ht : Tracks s m) : s.phase = phaseWithStepsLeft (blockCount m.length) s.stepsLeft := by
  cases hp : phaseInBlock s.phase with
  | true =>
    obtain ⟨-, -, hnblk, hblk, -⟩ := ht.hashesBlock hp
    obtain ⟨hphase, hpos, hmax⟩ := phase_of_blockStepsLeft (rangeInvariant_of_tracks ht) hp
    rw [stepsLeft_of_phaseInBlock hp, ← hnblk, phaseWithStepsLeft_in_block (by omega) hpos hmax]
    exact hphase
  | false =>
    obtain ⟨-, hlen⟩ := ht.message
    rcases ht.phase_of_not_inBlock hp with h | h | h
    · rw [stepsLeft_of_pad h, hlen, h, phaseWithStepsLeft, if_neg (by omega), if_neg (by omega), if_pos rfl]
    · rw [stepsLeft_of_format h, h]
      rfl
    · rw [ht.stepsLeft_eq_zero_iff.mpr h, h]
      rfl

end

/-- Settles O54: START begins the message, and with no move of the host each step takes one off the steps left. -/
theorem runComputesSha256 : Obligations.RunComputesSha256 := by
  intro m s hfits hphase hscript
  have ht := tracks_beginMessage m s
  have hall := ht.stepsLeft_at_start rfl
  have hrun := fun k => runSteps_of_script_nil (k := k) ht hscript
  obtain ⟨u, hu, htu, hleft⟩ := hrun (2 + 115 * ((m.length + 8) / 64 + 1))
  have hdone := htu.phase_done (by omega)
  obtain ⟨hdigest, hhex⟩ := htu.done hdone
  refine ⟨_, u, exec_start_begins hfits ((phaseQuiet_iff s.phase).mpr hphase), hu, hdone, hhex, hdigest, fun k hk => ?_⟩
  obtain ⟨v, hv, htv, hleftv⟩ := hrun k
  exact ⟨v, hv, htv.busy_iff.mpr (by omega)⟩

/-- What a START on a quiescent core without a script leads to in `k` steps: the correspondence with its message, and as
many steps left as `k` and the message say. -/
theorem tracks_after_start {m : List Byte} {s t u : State} {k : Nat} (hq : s.quiet = true) (hs : s.script = [])
    (ht : exec (.start m) s = .next t) (hu : runSteps k t = .next u) :
    Tracks u m ∧ u.stepsLeft = 2 + 115 * ((m.length + 8) / 64 + 1) - k := by
  obtain ⟨-, ⟨-, rfl⟩ | ⟨hn, -⟩⟩ := exec_start_next ht
  · have htracks := tracks_beginMessage m s
    obtain ⟨v, hv, htv, hleft⟩ := runSteps_of_script_nil (k := k) htracks hs
    obtain rfl := Host.Outcome.next.inj (hv.symm.trans hu)
    exact ⟨htv, hleft.trans (by rw [htracks.stepsLeft_at_start rfl])⟩
  · simp [hq] at hn

/-- Settles O55: both runs have the same steps left, which determine `PHASE`; and each shows the digest of the message. -/
theorem resultIndependentOfEarlierState : Obligations.ResultIndependentOfEarlierState := by
  intro m s s' t t' u u' k hq hq' hs hs' ht ht' hu hu'
  obtain ⟨htu, hleft⟩ := tracks_after_start hq hs ht hu
  obtain ⟨htu', hleft'⟩ := tracks_after_start hq' hs' ht' hu'
  have hphase : u.phase = u'.phase := by rw [htu.phase_eq, htu'.phase_eq, hleft, hleft']
  refine ⟨congrArg statusOf hphase, fun hp => ?_⟩
  obtain ⟨hdigest, hhex⟩ := htu.done hp
  obtain ⟨hdigest', hhex'⟩ := htu'.done (hphase.symm.trans hp)
  exact ⟨hdigest.trans hdigest'.symm, hhex.trans hhex'.symm⟩

/-! ### A run with the host's moves in between -/

section
variable {s t : State} {m : List Byte}

/-- What the machine does next, with the script moved on (R63). -/
theorem fetch_cases (s : State) :
    (∃ e rest, s.script = .event e :: rest ∧ s.fetch = .operation (.host e) (s.withScript rest)) ∨
    (∃ l, s.fetch = .operation (.phase s.phase) (s.withScript l)) ∨ (∃ l, s.fetch = .nextLine (s.withScript l)) := by
  unfold State.fetch
  match h : s.script with
  | [] => exact .inr (.inl ⟨s.script, rfl⟩)
  | .event e :: rest => exact .inl ⟨e, rest, rfl, rfl⟩
  | .run 0 :: rest => exact .inr (.inr ⟨rest, rfl⟩)
  | .run (n + 1) :: rest => exact .inr (.inl ⟨.run n :: rest, rfl⟩)
  | .waitDone :: rest =>
    cases hd : s.isDone with
    | true => exact .inr (.inr ⟨rest, rfl⟩)
    | false => exact .inr (.inl ⟨s.script, rfl⟩)

/-- An event of the host that does not restart the core leaves it alone. -/
theorem sameCore_of_event {e : HostEvent} {rest : List ScriptLine} (hscript : s.script = .event e :: rest)
    (h : step s = .next t) (hr : s.restarts = false) : s.sameCore t := by
  rw [step_of_script_event hscript] at h
  obtain ⟨he, -⟩ | ⟨m, he, -, hq, -⟩ | hcore := exec_decodeHost_next h
  · simp [restarts_of_reset hscript he] at hr
  · simp [restarts_of_start hscript he hq] at hr
  · exact hcore

theorem stepsLeft_of_sameCore (h : s.sameCore t) : t.stepsLeft = s.stepsLeft := by
  unfold State.sameCore at h
  rw [← h]
  rfl

/-- A step that does not restart the core is either one that `coreMoves` counts, a step of a busy core, or it leaves the
core alone. -/
theorem step_next_coreMoves_cases (h : step s = .next t) (hr : s.restarts = false) :
    (s.coreMoves = true ∧ s.busy = true ∧ ∃ l, coreStep (s.withScript l) = .next t) ∨
    (s.coreMoves = false ∧ s.sameCore t) := by
  obtain ⟨e, rest, hscript, hf⟩ | ⟨l, hf⟩ | ⟨l, hf⟩ := fetch_cases s
  · exact .inr ⟨by rw [State.coreMoves, hf], sameCore_of_event hscript h hr⟩
  · have hmoves : s.coreMoves = s.busy := by rw [State.coreMoves, hf]
    have hstep : coreStep (s.withScript l) = .next t := by
      rw [step, hf] at h
      exact h
    cases hb : s.busy with
    | true => exact .inl ⟨hmoves.trans hb, rfl, l, hstep⟩
    | false =>
      obtain rfl := Host.Outcome.next.inj ((coreStep_of_not_busy (s := s.withScript l) hb).symm.trans hstep)
      exact .inr ⟨hmoves.trans hb, sameCore_withScript s l⟩
  · rw [step, hf] at h
    obtain rfl := Host.Outcome.next.inj h
    exact .inr ⟨by rw [State.coreMoves, hf], sameCore_withScript s l⟩

/-- A step that does not restart the core keeps the correspondence, and takes one off the steps left just where
`coreMoves` counts it. -/
theorem step_keeps_tracks (ht : Tracks s m) (hr : s.restarts = false) (h : step s = .next t) :
    Tracks t m ∧ t.stepsLeft + (if s.coreMoves then 1 else 0) = s.stepsLeft := by
  rcases step_next_coreMoves_cases h hr with ⟨hmoves, hb, l, hl⟩ | ⟨hmoves, hcore⟩
  · have hts := tracks_of_sameCore (sameCore_withScript s l) ht
    rw [if_pos hmoves]
    exact ⟨coreStep_keeps_tracks hts hl, coreStep_stepsLeft (s := s.withScript l) (rangeInvariant_of_tracks hts) hb hl⟩
  · rw [hmoves]
    exact ⟨tracks_of_sameCore hcore ht, stepsLeft_of_sameCore hcore⟩

/-- No restart falls into the next `n` steps. -/
def State.notRestartedIn (n : Nat) (s : State) : Prop :=
  ∀ k u, k < n → runSteps k s = .next u → u.restarts = false

theorem restarts_of_notRestartedIn {n : Nat} (h : s.notRestartedIn (n + 1)) : s.restarts = false :=
  h 0 s (Nat.succ_pos n) rfl

theorem notRestartedIn_step {n : Nat} (h : s.notRestartedIn (n + 1)) (hstep : step s = .next t) :
    t.notRestartedIn n :=
  fun k u hk hu => h (k + 1) u (Nat.succ_lt_succ hk) ((runSteps_succ hstep k).trans hu)

/-- A run that is not restarted keeps the correspondence, and the steps of the core it has taken are those no longer
left (R111). -/
theorem runSteps_of_notRestartedIn {n : Nat} (ht : Tracks s m) (hr : s.notRestartedIn n)
    (h : runSteps n s = .next t) : Tracks t m ∧ t.stepsLeft + coreStepsIn n s = s.stepsLeft := by
  induction n generalizing s with
  | zero =>
    obtain rfl := Host.Outcome.next.inj h
    exact ⟨ht, rfl⟩
  | succ n ih =>
    rw [runSteps] at h
    cases hu : step s with
    | next u =>
      rw [hu] at h
      obtain ⟨htu, hleft⟩ := step_keeps_tracks ht (restarts_of_notRestartedIn hr) hu
      obtain ⟨htt, hsum⟩ := ih htu (notRestartedIn_step hr hu) h
      have hcount : coreStepsIn (n + 1) s = (if s.coreMoves then 1 else 0) + coreStepsIn n u := by rw [coreStepsIn, hu]
      exact ⟨htt, by omega⟩
    | fault r => rw [hu] at h; cases h
    | refused r => rw [hu] at h; cases h

end

/-- Settles O56: the run keeps the correspondence with its message, which in `DONE` gives the digest. -/
theorem interleavingDoesNotChangeResult : Obligations.InterleavingDoesNotChangeResult := by
  intro n m s t ht hr h
  obtain ⟨htt, -⟩ := runSteps_of_notRestartedIn ht hr h
  exact ⟨htt, fun hp => (htt.done hp).symm⟩

/-- Settles O57: the steps of the core taken and those left make up the whole run. -/
theorem runTakesExactlyItsSteps : Obligations.RunTakesExactlyItsSteps := by
  intro n m s t ht hp hr h
  obtain ⟨htt, hsum⟩ := runSteps_of_notRestartedIn ht hr h
  rw [ht.stepsLeft_at_start hp] at hsum
  rw [htt.busy_iff, ← htt.stepsLeft_eq_zero_iff]
  omega

end Sys2Proof.Machine
end

section
/-! What can stop: an operation, or a step of the machine (R105, R120), and the obligations of spec/60_exceptions.md. -/

namespace Sys2Proof.Machine

/-! ### No operation ends in an error (R120) -/

/-- Of all operations `START` alone can stop, and only with a message that cannot be offered (R105). -/
theorem exec_next_or_start_too_long (i : Instr) (s : State) :
    (∃ t, exec i s = .next t) ∨ ∃ m, i = .start m ∧ messageFits s.maxMsgBytes m = false ∧
      exec i s = .refused (.messageTooLong m.length) := by
  cases i with
  | start m =>
    cases hfits : messageFits s.maxMsgBytes m with
    | true => exact .inl ⟨_, exec_start_fits hfits⟩
    | false => exact .inr ⟨m, rfl, hfits, exec_start_too_long hfits⟩
  | _ => exact .inl ⟨_, rfl⟩

theorem exec_next_of_wellFormedFor {i : Instr} {s : State} (h : i.wellFormedFor s.maxMsgBytes = true) :
    ∃ t, exec i s = .next t := by
  obtain hnext | ⟨m, rfl, hlong, -⟩ := exec_next_or_start_too_long i s
  · exact hnext
  · cases hlong.symm.trans h

/-- Settles O9: of all operations `START` alone can stop, and the host's line alone brings a step to it. -/
theorem noOperationEndsInAnError : Obligations.NoOperationEndsInAnError := by
  refine ⟨fun _ _ => exec_next_of_wellFormedFor, fun s => ?_⟩
  obtain ⟨e, rest, hscript, hstep⟩ | ⟨l, hstep⟩ | ⟨l, hstep⟩ := step_cases s
  case inl =>
    rw [hstep]
    have hcases := exec_next_or_start_too_long (decodeHost e) (s.withScript rest)
    exact hcases.imp_right fun ⟨m, hm⟩ => ⟨e, rest, m, hscript, hm⟩
  case inr.inl =>
    obtain ⟨t, ht, -⟩ := coreStep_next (s.withScript l)
    exact .inl ⟨t, hstep.trans ht⟩
  case inr.inr => exact .inl ⟨_, hstep⟩

/-! ### The quiescent core and the output `done` (R123, R132) -/

/-- Settles O8: the rows of `IDLE` and `DONE` in the sequencer's table. -/
theorem quiescentCoreHoldsState : Obligations.QuiescentCoreHoldsState :=
  fun _ hscript hphase => (quiescent_row hscript hphase).1

theorem doneOutput_iff (s : State) : s.doneOutput = true ↔ s.phase = Phase.done := phaseDone_iff s.phase

/-- The output `done` and bit 5 of `STATUS` are high in the same phase (R60). -/
theorem doneOutput_eq_status_bit (s : State) : s.doneOutput = s.status.getLsbD 5 := by
  obtain ⟨-, -, hdone, -⟩ := statusFormat.1 s.phase
  exact Bool.eq_iff_iff.mpr ((doneOutput_iff s).trans hdone.symm)

/-- Settles O15: the flag by the format of `STATUS`; `START` leads to `PAD` and `RESET` to `IDLE`. -/
theorem doneOutputIsTheFlag : Obligations.DoneOutputIsTheFlag :=
  ⟨fun s => ⟨doneOutput_eq_status_bit s, doneOutput_iff s⟩,
    fun s _ hfits hphase => ⟨_, exec_start_begins hfits ((phaseQuiet_iff s.phase).mpr hphase), rfl⟩,
    fun s => ⟨_, exec_reset s, rfl⟩⟩

end Sys2Proof.Machine
end

section
/-! RESET and what a busy core does with the host's moves (R122, R135, R142, R146), START and RESET as commands (R105,
R106), the digits of `HEX` (R55, R102) and the ROM words (R20, R21); with them the obligations of
spec/70_reset_and_hazards.md and those left over from the other files. -/

namespace Sys2Proof.Machine

/-! ### A busy core and the host (R122, R135, R142, R146) -/

theorem State.sameCore.symm {s t : State} (h : s.sameCore t) : t.sameCore s := by
  unfold State.sameCore at h ⊢
  rw [← h]

/-- Settles O44: of the host's operations `START` alone can stop; and of those that go on, RESET and an effective START
alone touch the core, and on a busy core START has no effect. -/
theorem busyCoreIgnoresHost : Obligations.BusyCoreIgnoresHost := by
  intro s e hbusy hne hfits
  obtain ⟨t, ht⟩ | ⟨m, he, hlong, -⟩ := exec_next_or_start_too_long (decodeHost e) s
  · obtain ⟨he, -⟩ | ⟨-, -, -, hquiet, -⟩ | hcore := exec_decodeHost_next ht
    · exact absurd he hne
    · cases hquiet.symm.trans (not_quiet_of_busy hbusy)
    · exact ⟨t, ht, hcore.symm⟩
  · cases hlong.symm.trans (hfits m he)

/-- Every arrow of R16 but FORMAT's leads to a working phase. -/
theorem busy_or_done_of_sequencerEnters {s : State} {p : BitVec 4} (h : s.sequencerEnters p) :
    phaseBusy p = true ∨ s.phase = Phase.format ∧ p = Phase.done := by
  rcases h with ⟨-, rfl⟩ | ⟨-, rfl⟩ | ⟨-, rfl⟩ | ⟨-, rfl⟩ | ⟨-, rfl⟩ | ⟨-, rfl⟩ | ⟨-, rfl⟩ | hdone
  pick_goal 8
  · exact .inr hdone
  all_goals exact .inl rfl

/-- Settles O45: a step that changes `PHASE` is a RESET, or a START, which a busy core ignores, or an arrow of R16. -/
theorem onlyResetInterruptsARun : Obligations.OnlyResetInterruptsARun := by
  intro s t hbusy h
  by_cases hsame : t.phase = s.phase
  · exact .inl ((congrArg phaseBusy hsame).trans hbusy)
  obtain ⟨hreset, hidle⟩ | ⟨hquiet, -⟩ | harrow := step_phase_cases h hsame
  · exact .inr (.inr ⟨hidle, hreset⟩)
  · cases ((phaseQuiet_iff s.phase).mpr hquiet).symm.trans (not_quiet_of_busy hbusy)
  · exact (busy_or_done_of_sequencerEnters harrow).imp_right .inl

/-! ### START (R105) -/

theorem statusOf_pad : statusOf Phase.pad = 0x11#8 := by decide

theorem messageFits_some_of_lt {bound : Nat} {m : List Byte} (h : bound < m.length) :
    messageFits (some bound) m = false := decide_eq_false (Nat.not_le.mpr h)

/-- `START` outside `IDLE` and `DONE` with a message the platform can offer. -/
theorem exec_start_of_not_quiet {m : List Byte} {s : State} (hfits : messageFits s.maxMsgBytes m = true)
    (hidle : s.phase ≠ Phase.idle) (hdone : s.phase ≠ Phase.done) : exec (.start m) s = .next s := by
  have hq : ¬ s.quiet = true := fun hq => ((phaseQuiet_iff s.phase).mp hq).elim hidle hdone
  rw [exec_start_fits hfits, if_neg hq]

/-- Settles O35: effective by `exec_start_begins`, without effect by `exec_start_of_not_quiet`, refused by
`exec_start_too_long`. -/
theorem startBeginsMessage : Obligations.StartBeginsMessage := by
  refine ⟨fun m s hfits hphase => ?effective, fun _ _ => exec_start_of_not_quiet,
    fun m s => messageFits_iff s.maxMsgBytes m, fun bound m s hbound hlong => ?refused⟩
  case effective =>
    exact ⟨_, exec_start_begins hfits ((phaseQuiet_iff s.phase).mpr hphase), Memory.read?_ofBytes m, rfl, rfl, rfl, rfl,
      statusOf_pad, rfl⟩
  case refused => exact exec_start_too_long (hbound ▸ messageFits_some_of_lt hlong)

/-! ### RESET (R106) -/

/-- Settles O37: the reset event leads to `IDLE`, and bus value 2 and the reset input both ask for it. -/
theorem resetGoesToIdle : Obligations.ResetGoesToIdle := by
  refine ⟨fun s => ⟨_, exec_reset s, rfl, statusOf_idle, rfl, rfl⟩, fun s e rest hscript he => ?_⟩
  have hreset : decodeHost e = .reset := by
    obtain ⟨m, rfl⟩ | ⟨p, rfl⟩ := he <;> rfl
  refine ⟨(s.withScript rest).resetTo, ?_, rfl⟩
  rw [step_of_script_event hscript, hreset, exec_reset]

/-- The core after the reset event is a function of the parameter and the draw counter. -/
theorem sameCore_resetTo {s s' : State} (hbound : s.maxMsgBytes = s'.maxMsgBytes) (hdraws : s.draws = s'.draws) :
    s.resetTo.sameCore s'.resetTo := by
  simp only [State.sameCore, State.resetTo, hbound, hdraws]

/-- Settles O38: by `sameCore_resetTo`. -/
theorem resetKeepsNothing : Obligations.ResetKeepsNothing :=
  fun s s' hbound hdraws => ⟨_, _, exec_reset s, exec_reset s', sameCore_resetTo hbound hdraws⟩

/-! ### The digits of `HEX` (R55, R102) -/

/-- Settles O12: at each of the sixteen digits. -/
theorem hexDigitTable : Obligations.HexDigitTable := by
  unfold Obligations.HexDigitTable
  decide

theorem hexdigit_range (d : BitVec 4) :
    (0x30#8 ≤ hexdigit d ∧ hexdigit d ≤ 0x39#8) ∨ (0x61#8 ≤ hexdigit d ∧ hexdigit d ≤ 0x66#8) := by
  revert d
  decide

theorem hexdigit_injective : ∀ {d d' : BitVec 4}, hexdigit d = hexdigit d' → d = d' := by decide

/-- Character `8i + k` is digit `k` of word `i` (R54). -/
theorem getElem_hexOf_digestOf (h : Vector Word 8) {i k : Nat} (hi : i < 8) (hk : k < 8) :
    (hexOf (digestOf h))[8 * i + k] = hexdigit (h[i].extractLsb' (28 - 4 * k) 4) := by
  have hword : (8 * i + k) / 8 = i := by omega
  have hdigit : (8 * i + k) % 8 = k := by omega
  simp only [hexFormat.2 h (8 * i + k) (by omega), hword, hdigit]

/-- A word is determined by its eight digits. -/
theorem eq_of_digits_eq {v w : Word}
    (h : ∀ k, k < 8 → v.extractLsb' (28 - 4 * k) 4 = w.extractLsb' (28 - 4 * k) 4) : v = w := by
  ext i hi
  have hplace : 28 - 4 * (7 - i / 4) + i % 4 = i := by omega
  have hbit := congrArg (·.getLsbD (i % 4)) (h (7 - i / 4) (by omega))
  simpa [BitVec.getLsbD_extractLsb', Nat.mod_lt, hplace, hi] using hbit

theorem hexOf_digestOf_injective {h h' : Vector Word 8} (heq : hexOf (digestOf h) = hexOf (digestOf h')) : h = h' := by
  ext1 i hi
  refine eq_of_digits_eq fun k hk => hexdigit_injective ?_
  rw [← getElem_hexOf_digestOf h hi hk, ← getElem_hexOf_digestOf h' hi hk, heq]

/-- Settles O34: each character is a digit of a word of the hash state, and different digits have different characters. -/
theorem formatProperties : Obligations.FormatProperties :=
  ⟨fun _ => Vector.length_toList, fun h m hm => hexFormat.2 h m hm ▸ hexdigit_range _,
    fun _ _ => hexOf_digestOf_injective⟩

/-! ### The ROM words (R20, R21) -/

/-- The first 64 primes. -/
def firstPrimes : List Nat :=
  [2, 3, 5, 7, 11, 13, 17, 19, 23, 29, 31, 37, 41, 43, 47, 53,
   59, 61, 67, 71, 73, 79, 83, 89, 97, 101, 103, 107, 109, 113, 127, 131,
   137, 139, 149, 151, 157, 163, 167, 173, 179, 181, 191, 193, 197, 199, 211, 223,
   227, 229, 233, 239, 241, 251, 257, 263, 269, 271, 277, 281, 283, 293, 307, 311]

/-- `firstPrimes` is what the sieve of O13 leaves of the numbers below 312. -/
theorem sieve_eq_firstPrimes :
    ((List.range 312).filter fun n => 1 < n && (List.range n).all fun d => d < 2 || n % d != 0) = firstPrimes := by
  decide +kernel

/-- Settles O13: with the primes at hand, each of the 72 words is held between the two powers by the integer part of its
root. -/
theorem romsAreRootsOfPrimes : Obligations.RomsAreRootsOfPrimes := by
  unfold Obligations.RomsAreRootsOfPrimes
  rw [sieve_eq_firstPrimes]
  refine ⟨rfl, length_romK, ?cubeRoots, ?squareRoots⟩
  case cubeRoots => decide +kernel
  case squareRoots => decide +kernel

end Sys2Proof.Machine
end
